-- ==== Sys2Proof/Word.lean ====
section
/-! DEFINITION. The two widths of the block: bytes, and the 32-bit words of its registers and its data bus
(spec 00_scope.md R11, 20_memory.md R48). Every value is unsigned. -/

namespace Sys2Proof

/-- A byte of a buffer, a character code or a table entry (R12). -/
abbrev Byte := BitVec 8

/-- A register value, a command word or the data of a bus transaction (R11, R48). -/
abbrev Word := BitVec 32

end Sys2Proof
end

