-- ==== Sys2Proof/Config.lean ====
section
/-! DEFINITION. What an implementation or its platform fixes (spec 00_scope.md R8, 92_eei_decisions.md "Open
parameters"), and the free value behind every `any` of the spec (R13). -/

namespace Sys2Proof

/-- BUS_ERROR_ACTION, what the HOST does on an ERROR response: "a fault or an ignored response is the platform's"
(60_exceptions.md R138). The block's own state is the same either way (log 8). -/
inductive BusErrorAction where
  /-- The HOST goes on with its next operation; the read has no value. -/
  | ignore
  /-- The HOST's transaction faults: it does not complete, and the HOST issues nothing more; the block goes on. -/
  | fault
deriving DecidableEq, Repr

/-- The configuration: constants of one block and its platform (R8). It is carried in the state and no step
changes it, so a statement about every state is a statement about every configuration (log 1). -/
structure Config where
  /-- IN_CAP, the input buffer's size in bytes. -/
  inCap : Nat
  /-- OUT_CAP, the output buffer's size in bytes. -/
  outCap : Nat
  /-- BLOCK_BASE, the system address of block offset 0. -/
  blockBase : Nat
  /-- ALPHA[0], indexed by digit value (10_state.md R35). -/
  alpha0 : List Byte
  /-- ALPHA[1], indexed by digit value (10_state.md R35). -/
  alpha1 : List Byte
  /-- BUS_ERROR_ACTION (R138). -/
  busErrorAction : BusErrorAction
deriving DecidableEq, Repr

/-- `any` (R13): "an unspecified value the model draws freely". The byte at a position of a batch of draws. It has no
body, so nothing can be proved of its value; each batch number is used for one event only (log 4). -/
opaque Config.freeByte : Nat → Nat → Byte

end Sys2Proof
end

