-- ==== Sys2Proof/Syntax.lean ====
section
/-! DEFINITION. The commands of the block (spec/opcode_table.json, 30_encoding.md), the words that are none, and the
HOST's bus operations (30_encoding.md R80, R81). -/

namespace Sys2Proof

/-- The alphabet a command selects: field A of the table, ASEL 0 or 1 (R75). -/
inductive Asel where
  /-- ASEL = 0, ALPHA[0], Bitcoin-style. -/
  | a0
  /-- ASEL = 1, ALPHA[1], Flickr-style. -/
  | a1
deriving DecidableEq, Repr

/-- The commands, one constructor for each row of spec/opcode_table.json (R74, R84). -/
inductive Instr where
  /-- NOP (R128). -/
  | nop
  /-- ENCODE, bytes to base-58 text (R103). -/
  | encode (a : Asel)
  /-- DECODE, base-58 text to bytes (R119). -/
  | decode (a : Asel)
deriving DecidableEq, Repr

/-- Why a word is ILLEGAL (R77, R78). All of them complete with the one error ILLEGAL_CMD; the names say which rule
made the word illegal. -/
inductive IllegalWord where
  /-- RSVD is not 0 (R132). -/
  | reservedBits
  /-- OP is 3 to 15 (R130). -/
  | reservedOp
  /-- ASEL is reserved for this OP (R131). -/
  | reservedAsel
  /-- Not four bytes, so not the data of a CMD write at all (R72). -/
  | notOneWord
deriving DecidableEq, Repr

/-- What the decode function answers (R77). -/
inductive Decoded where
  | instr (i : Instr)
  | illegal (r : IllegalWord)
deriving DecidableEq, Repr

/-- The size of a bus transaction, n in {1, 2, 4} (20_memory.md R48). -/
inductive Size where
  | byte
  | half
  | word
deriving DecidableEq, Repr

/-- The data a HOST script writes: a number, or the value a named read returned (R81). -/
inductive HostVal where
  | lit (v : Word)
  | result (x : Nat)
deriving DecidableEq, Repr

/-- The HOST's operations, each one bus transaction, at a system address (R81; BLOCK_BASE + offset, R49). `EXPECT` is
"not a bus transaction" and is no operation of the machine (log 12). -/
inductive HostOp where
  /-- `W32`, `W16` and `W8`: a write of the low bytes of `v`. -/
  | write (addr : Nat) (n : Size) (v : HostVal)
  /-- `R32`, `R16` and `R8`: a read whose result is named `x`. -/
  | read (addr : Nat) (n : Size) (x : Nat)
  /-- `POLL off, m, v`: 32-bit reads until `(result AND m) = v`, one read per step. -/
  | poll (addr : Nat) (m v : Word)
deriving DecidableEq, Repr

/-- Which agent takes the next step (00_scope.md R7). -/
inductive Turn where
  /-- The HOST issues its next transaction. -/
  | host
  /-- The ENGINE takes its completion step if it is enabled. -/
  | engine
  /-- RST is asserted: the reset step (70_reset_and_hazards.md R154). -/
  | rstAssert
  /-- RST is released (R155). -/
  | rstRelease
deriving DecidableEq, Repr

/-- A command as a host script writes it (R80): a mnemonic, or `.word 0x<hex>`, which assembles to itself. -/
inductive CmdText where
  | instr (i : Instr)
  | word (w : Word)
deriving DecidableEq, Repr

end Sys2Proof
end

