-- ==== Sys2Proof/Decode.lean ====
section
/-! DEFINITION. The decode function of 30_encoding.md R77, total on every word and on any bytes, then the encoder
(R73 to R75), the opcode table's own reading of a word (R84), and the host's probe of the decoder. -/

namespace Sys2Proof

/-- OP = w[3:0] (R73). -/
def opField (w : Word) : BitVec 4 := w.extractLsb' 0 4

/-- ASEL = w[7:4] (R73). -/
def aselField (w : Word) : BitVec 4 := w.extractLsb' 4 4

/-- RSVD = w[31:8] (R73). -/
def rsvdField (w : Word) : BitVec 24 := w.extractLsb' 8 24

/-- The alphabet an ASEL value selects: 0 and 1, and no other (R75). -/
def aselOf (f : BitVec 4) : Option Asel :=
  if f = 0 then some .a0 else if f = 1 then some .a1 else none

/-- A conversion command with its ASEL field, or the rejection of R131. -/
def withAsel (f : BitVec 4) (mk : Asel → Instr) : Decoded :=
  match aselOf f with
  | some a => .instr (mk a)
  | none => .illegal .reservedAsel

/-- The decode function (R77). -/
def decodeWord (w : Word) : Decoded :=
  if rsvdField w ≠ 0 then .illegal .reservedBits
  else if opField w = 0 then (if aselField w = 0 then .instr .nop else .illegal .reservedAsel)
  else if opField w = 1 then withAsel (aselField w) .encode
  else if opField w = 2 then withAsel (aselField w) .decode
  else .illegal .reservedOp

/-- The word four bytes make on the bus: the first is the least significant lane (20_memory.md R51). -/
def wordOfBytes (b0 b1 b2 b3 : Byte) : Word := (b3 ++ b2 ++ b1 ++ b0 : BitVec 32)

/-- Decoding the data bytes of a CMD write. A command is exactly one 32-bit word (R72). -/
def decodeBytes : List Byte → Decoded
  | [b0, b1, b2, b3] => decodeWord (wordOfBytes b0 b1 b2 b3)
  | _ => .illegal .notOneWord

/-- The ASEL field of an alphabet (R75). -/
def aselBits : Asel → BitVec 4
  | .a0 => 0
  | .a1 => 1

/-- The OP field of a command (R74). -/
def opBits : Instr → BitVec 4
  | .nop => 0
  | .encode _ => 1
  | .decode _ => 2

/-- The ASEL field of a command: 0 for NOP (R75). -/
def aselFieldOf : Instr → BitVec 4
  | .nop => 0
  | .encode a => aselBits a
  | .decode a => aselBits a

/-- The encoder: RSVD = 0, then ASEL, then OP (R73). -/
def encode (i : Instr) : Word := ((0 : BitVec 24) ++ aselFieldOf i ++ opBits i : BitVec 32)

/-- The word a command of a host script assembles to (R80). -/
def CmdText.toWord : CmdText → Word
  | .instr i => encode i
  | .word w => w

/-- Field A of the table's rows, w[4] (R84). -/
def aBit (w : Word) : Asel := if w.getLsbD 4 then .a1 else .a0

/-- The opcode table's reading of a word: the row whose `match` the word shows under the row's `mask` (R84). -/
def tableDecode (w : Word) : Option Instr :=
  if w &&& 0xFFFFFFFF#32 = 0x00000000#32 then some .nop
  else if w &&& 0xFFFFFFEF#32 = 0x00000001#32 then some (.encode (aBit w))
  else if w &&& 0xFFFFFFEF#32 = 0x00000002#32 then some (.decode (aBit w))
  else none

/-- The word the host's numbering stands for: bits above `nbits` are 0. -/
def probeWord (nbits w : Nat) : Word := BitVec.ofNat 32 (w % 2 ^ nbits)

/-- The bytes of a word in lane order (20_memory.md R51). -/
def bytesOfWord (w : Word) : List Byte :=
  [w.extractLsb' 0 8, w.extractLsb' 8 8, w.extractLsb' 16 8, w.extractLsb' 24 8]

/-- The instruction the decoder reads from the table's numbering of its bits; none where it rejects. -/
def decodeTableWord (nbits w : Nat) : Option Instr :=
  match decodeBytes (bytesOfWord (probeWord nbits w)) with
  | .instr i => some i
  | .illegal _ => none

end Sys2Proof
end

