-- ==== Sys2Proof/Machine/Memory.lean ====
section
/-! DEFINITION. The storage of one buffer (spec 10_state.md R38, R39): a list of (index, byte) cells in one canonical
form, indices strictly rising. A cell that is not listed holds no written byte: what it reads as is a free value
(`State.inByte`, `State.outByte`; log 5), so no listed cell can equal what an unlisted one holds. -/

namespace Sys2Proof.Machine

/-- The written bytes of one buffer, by index. -/
abbrev Memory := List Host.Cell

/-- The canonical form: indices strictly rising. -/
def Memory.rising : Memory → Bool
  | [] => true
  | [_] => true
  | (i, _) :: (j, b) :: m => decide (i < j) && Memory.rising ((j, b) :: m)

/-- The canonical form of a buffer of `cap` bytes: indices strictly rising and below the capacity. -/
def Memory.wf (cap : Nat) (m : Memory) : Bool := Memory.rising m && m.all (fun c => decide (c.1 < cap))

/-- The byte written at an index, none where no write has set it. -/
def Memory.get : Memory → Nat → Option Byte
  | [], _ => none
  | (j, b) :: m, i => if i = j then some b else Memory.get m i

/-- Write one byte, keeping the canonical form. -/
def Memory.set : Memory → Nat → Byte → Memory
  | [], i, v => [(i, v)]
  | (j, b) :: m, i, v =>
    if i < j then (i, v) :: (j, b) :: m
    else if i = j then (i, v) :: m
    else (j, b) :: Memory.set m i v

/-- Write consecutive bytes from an index upward. -/
def Memory.setBytes : Memory → Nat → List Byte → Memory
  | m, _, [] => m
  | m, i, v :: vs => Memory.setBytes (Memory.set m i v) (i + 1) vs

/-- The memory in which exactly the given bytes are written, from an index upward. -/
def Memory.ofBytes : Nat → List Byte → Memory
  | _, [] => []
  | i, v :: vs => (i, v) :: Memory.ofBytes (i + 1) vs

end Sys2Proof.Machine
end

