-- ==== Sys2Proof/Machine/Reference.lean ====
section
/-! DEFINITION. The constants of the block: the identification value (10_state.md R20), the two built-in alphabet
tables (R35) and the reference configuration (00_scope.md R8). -/

namespace Sys2Proof.Machine

/-- ID = 0x42353801: MAGIC "B58" and revision 1 (R20). -/
def idWord : Word := 0x42353801#32

/-- `k` consecutive character codes from `c` upward. -/
def chars (c k : Nat) : List Byte := (List.range' c k).map (BitVec.ofNat 8)

/-- ALPHA[0], Bitcoin-style, by the byte ranges of R35. PRESUMED by the spec itself: "from general knowledge, not in
source" (93 G1; log 3). -/
def alphaBitcoin : List Byte :=
  chars 0x31 9 ++ chars 0x41 8 ++ chars 0x4A 5 ++ chars 0x50 11 ++ chars 0x61 11 ++ chars 0x6D 14

/-- ALPHA[1], Flickr-style, by the byte ranges of R35. PRESUMED by the spec itself (93 G2; log 3). -/
def alphaFlickr : List Byte :=
  chars 0x31 9 ++ chars 0x61 11 ++ chars 0x6D 14 ++ chars 0x41 8 ++ chars 0x4A 5 ++ chars 0x50 11

/-- The reference configuration: IN_CAP = 128 and OUT_CAP = 176 (R8), the default tables (R35); BLOCK_BASE and
BUS_ERROR_ACTION are DESIGN CHOICE, the spec gives no reference value (log 2). -/
def referenceConfig : Config where
  inCap := 128
  outCap := 176
  blockBase := 0x40000
  alpha0 := alphaBitcoin
  alpha1 := alphaFlickr
  busErrorAction := .fault

end Sys2Proof.Machine
end

