-- ==== Sys2Proof/Machine/State.lean ====
section
/-! DEFINITION. The state of the block (spec 10_state.md R16, R19, R40), of the port and the HOST that drive it
(00_scope.md R7), the reasons a step can stop, and the state after reset (R46). -/

namespace Sys2Proof.Machine

/-- SEQ (R40, R85). -/
inductive Seq where
  | idle
  | busy
deriving DecidableEq, Repr

/-- CTRL (R21): IE is bit 0; every other bit reads 0 and ignores writes (R44). -/
structure Ctrl where
  ie : Bool
deriving DecidableEq, Repr

/-- STATUS (R22): its five fields; every other bit reads 0 and ignores writes (R44). -/
structure Status where
  busy : Bool
  done : Bool
  err : Bool
  ovr : Bool
  errcode : BitVec 4
deriving DecidableEq, Repr

/-- The error codes that are produced (60_exceptions.md R133). -/
inductive ErrCode where
  | none
  | invalidChar
  | lenRange
  | outOverflow
  | illegalCmd
deriving DecidableEq, Repr

/-- The outcome r of a command (40_sequencer.md R92, R93). -/
inductive Result where
  /-- Ok(out, lz): ENCODE and DECODE. -/
  | ok (out : List Byte) (lz : Nat)
  /-- OkNoOutput: NOP. -/
  | okNoOutput
  /-- Fail(code, touched, eb, ei). -/
  | fail (code : ErrCode) (touched : Bool) (eb : Byte) (ei : Nat)
deriving DecidableEq, Repr

/-- The response that ends a bus transaction (20_memory.md R48). -/
inductive Response where
  /-- ERROR: no data, no state change (R53). -/
  | error
  /-- OK of a write. -/
  | written
  /-- OK of a read, with the data in its low 8n bits. -/
  | data (v : Word)
deriving DecidableEq, Repr

/-- Why a step stops. Both stops are the HOST's; no command's meaning stops. -/
inductive Fault where
  /-- Raised by the HOST's step: its system address lies outside the block's window, and "what a system address
  BLOCK_BASE + 0x30000 or above reaches is the platform's concern" (20_memory.md R49). Safe: the model stops (log 9). -/
  | outsideWindow
  /-- Raised by the HOST's step: its script writes the value of a read that returned none (R53 "returns no data").
  Safe: the model stops (log 10). -/
  | noValue
deriving DecidableEq, Repr

/-- Why an instruction has no meaning. -/
inductive Refusal where
  /-- Raised by `exec` for a command without a meaning yet; there is none. Safe: the model stops. -/
  | notModelled (mnemonic : String)
deriving DecidableEq, Repr

/-- The state. -/
@[ext]
structure State where
  /-- The configuration, constant in every run (00_scope.md R8; log 1). -/
  cfg : Config
  /-- The level of the RST input (R153): true while it is asserted. -/
  rst : Bool
  ctrl : Ctrl
  status : Status
  /-- CMD_LAST, the last accepted word (R28). -/
  cmdLast : Word
  inLen : Word
  outLen : Word
  lzCount : Word
  errByte : Word
  errIndex : Word
  /-- The written bytes of IN_BUF (R38). -/
  inBuf : Memory
  /-- The written bytes of OUT_BUF (R39). -/
  outBuf : Memory
  seq : Seq
  /-- PEND, the command in flight (R40). -/
  pend : Word
  /-- The model's own: the next unused batch of free values (log 4). -/
  draws : Nat
  /-- The model's own: the batch IN_BUF's unwritten bytes read from (R71; log 4). -/
  inBatch : Nat
  /-- The model's own: the batch OUT_BUF's unwritten bytes read from (R39; log 4). -/
  outBatch : Nat
  /-- The response of the latest transaction, none before the first (R48; log 7). -/
  resp : Option Response
  /-- The HOST's remaining operations, in bus order (R63, R81; log 7). -/
  script : List HostOp
  /-- The results of the HOST's named reads, latest first (R81; log 7). -/
  vals : List (Nat × Word)
  /-- The model's own: whose turn each coming step is (R7, R91; log 6). -/
  sched : List Turn
deriving DecidableEq, Repr

/-- The state after reset of a block with a given configuration (R46, R156): every register and SEQ and PEND at the
values of R46, the buffers' bytes draws, RST released. -/
def State.resetWith (c : Config) : State where
  cfg := c
  rst := false
  ctrl := { ie := false }
  status := { busy := false, done := false, err := false, ovr := false, errcode := 0#4 }
  cmdLast := 0#32
  inLen := 0#32
  outLen := 0#32
  lzCount := 0#32
  errByte := 0#32
  errIndex := 0#32
  inBuf := []
  outBuf := []
  seq := .idle
  pend := 0#32
  draws := 2
  inBatch := 0
  outBatch := 1
  resp := none
  script := []
  vals := []
  sched := []

/-- The machine right after reset, in the reference configuration (R46, R8; log 2). -/
def State.reset : State := State.resetWith referenceConfig

end Sys2Proof.Machine
end

