-- ==== Sys2Proof/Machine/Flags.lean ====
section
/-! DEFINITION. STATUS and CTRL: every change of a status flag the spec gives (10_state.md R22 to R27), their words as
the bus reads them, and the interrupt line (R42). -/

namespace Sys2Proof.Machine

/-- The number of an error code (60_exceptions.md R133). -/
def ErrCode.code : ErrCode → BitVec 4
  | .none => 0
  | .invalidChar => 1
  | .lenRange => 2
  | .outOverflow => 3
  | .illegalCmd => 4

/-- The flags acceptance leaves: BUSY set, DONE, ERR and ERRCODE cleared, OVR kept (40_sequencer.md R88). -/
def Status.accepted (st : Status) : Status :=
  { st with busy := true, done := false, err := false, errcode := 0 }

/-- The flags completion leaves: ERRCODE the code, ERR set unless it is NONE, DONE set, BUSY cleared, OVR kept (R92). -/
def Status.completed (st : Status) (c : ErrCode) : Status :=
  { st with busy := false, done := true, err := decide (c ≠ .none), errcode := c.code }

/-- A dropped write sets OVR (10_state.md R26). -/
def Status.overrun (st : Status) : Status := { st with ovr := true }

/-- A STATUS write: bits 1 and 3 clear DONE and OVR; the other bits are ignored (R22). -/
def Status.writeOneClear (st : Status) (v : Word) : Status :=
  { st with done := st.done && !v.getLsbD 1, ovr := st.ovr && !v.getLsbD 3 }

/-- STATUS as read (R22). -/
def Status.toWord (st : Status) : Word :=
  (0#20 ++ st.errcode ++ 0#4 ++ BitVec.ofBool st.ovr ++ BitVec.ofBool st.err ++ BitVec.ofBool st.done
    ++ BitVec.ofBool st.busy : BitVec 32)

/-- CTRL as read (R21). -/
def Ctrl.toWord (c : Ctrl) : Word := (0#31 ++ BitVec.ofBool c.ie : BitVec 32)

/-- A CTRL write: bit 0 is IE, the rest is ignored (R21). -/
def Ctrl.ofWord (v : Word) : Ctrl := { ie := v.getLsbD 0 }

/-- IRQ = CTRL.IE AND STATUS.DONE, a level (R42). -/
def State.irq (s : State) : Bool := s.ctrl.ie && s.status.done

end Sys2Proof.Machine
end

