-- ==== Sys2Proof/Machine/Operands.lean ====
section
/-! DEFINITION. The operands of the commands (30_encoding.md R76): the alphabet ASEL selects, the length in IN_LEN and
the bytes of IN_BUF; and the bytes of OUT_BUF. -/

namespace Sys2Proof.Machine

/-- ALPHA[a] (10_state.md R35). -/
def alphabet (c : Config) : Asel → List Byte
  | .a0 => c.alpha0
  | .a1 => c.alpha1

/-- IN_BUF[i]: the byte last written, or the draw of the last reset (20_memory.md R71; log 5). -/
def State.inByte (s : State) (i : Nat) : Byte := (s.inBuf.get i).getD (Config.freeByte s.inBatch i)

/-- OUT_BUF[i] as stored: a result byte, or the draw of the last command or reset that left it unspecified
(10_state.md R39; log 4). -/
def State.outByte (s : State) (i : Nat) : Byte := (s.outBuf.get i).getD (Config.freeByte s.outBatch i)

/-- IN_BUF[0 : n] (R13). -/
def State.input (s : State) (n : Nat) : List Byte := (List.range n).map s.inByte

/-- OUT_BUF[0 : n]. -/
def State.output (s : State) (n : Nat) : List Byte := (List.range n).map s.outByte

end Sys2Proof.Machine
end

