-- ==== Sys2Proof/Machine/Ops.lean ====
section
/-! DEFINITION. The named operations on the state: acceptance (40_sequencer.md R88), the completion step's `finish`
(R92), of which a failure is the block's only exception (60_exceptions.md R142), the register writes of
20_memory.md R56, and the reset step (70_reset_and_hazards.md R154). Errors have no return operation: acceptance of
the next command clears them (R143). -/

namespace Sys2Proof.Machine

/-- accept(w) (R88). -/
def State.accept (w : Word) (s : State) : State :=
  { s with
    seq := .busy
    pend := w
    cmdLast := w
    status := s.status.accepted
    outLen := 0
    lzCount := 0
    errByte := 0
    errIndex := 0 }

/-- OUT_BUF[i] <- any for every i (R92): no byte is listed and the unlisted ones read from a new batch (log 4). -/
def State.redrawOut (s : State) : State :=
  { s with outBuf := [], outBatch := s.draws, draws := s.draws + 1 }

/-- The result of Ok(out, lz) (R92): OUT_BUF[0 : len(out)] is `out` and the rest `any`; OUT_LEN and LZ_COUNT. -/
def State.storeResult (out : List Byte) (lz : Nat) (s : State) : State :=
  { s.redrawOut with
    outBuf := Memory.ofBytes 0 out
    outLen := BitVec.ofNat 32 out.length
    lzCount := BitVec.ofNat 32 lz }

/-- The diagnostics of Fail(code, touched, eb, ei) (R92). -/
def State.recordFailure (eb : Byte) (ei : Nat) (s : State) : State :=
  { s with outLen := 0, lzCount := 0, errByte := eb.zeroExtend 32, errIndex := BitVec.ofNat 32 ei }

/-- The end of every completion (R92): the flags, and SEQ <- IDLE. -/
def State.complete (c : ErrCode) (s : State) : State :=
  { s with status := s.status.completed c, seq := .idle }

/-- The error code an outcome ends with: NONE for a success (R92, R133). -/
def Result.errCode : Result → ErrCode
  | .ok _ _ => .none
  | .okNoOutput => .none
  | .fail c _ _ _ => c

/-- finish(r) (R92). -/
def finish (r : Result) (s : State) : State :=
  match r with
  | .ok out lz => (s.storeResult out lz).complete .none
  | .okNoOutput => s.complete .none
  | .fail code true eb ei => (s.redrawOut.recordFailure eb ei).complete code
  | .fail code false eb ei => (s.recordFailure eb ei).complete code

/-- A write dropped because the block is BUSY: OVR <- 1 and nothing else (R87, R89). -/
def State.dropWrite (s : State) : State := { s with status := s.status.overrun }

/-- A CTRL write (10_state.md R21). -/
def State.writeCtrl (v : Word) (s : State) : State := { s with ctrl := Ctrl.ofWord v }

/-- A STATUS write (R22). -/
def State.writeStatus (v : Word) (s : State) : State := { s with status := s.status.writeOneClear v }

/-- A CMD write (R28): accepted while IDLE, dropped while BUSY (40_sequencer.md R86, R87). -/
def State.writeCmd (v : Word) (s : State) : State :=
  match s.seq with
  | .idle => s.accept v
  | .busy => s.dropWrite

/-- An IN_LEN write (10_state.md R29). -/
def State.writeInLen (v : Word) (s : State) : State :=
  match s.seq with
  | .idle => { s with inLen := v }
  | .busy => s.dropWrite

/-- A write of consecutive IN_BUF bytes (R38). -/
def State.writeIn (i : Nat) (bs : List Byte) (s : State) : State :=
  match s.seq with
  | .idle => { s with inBuf := s.inBuf.setBytes i bs }
  | .busy => s.dropWrite

/-- The reset step (70_reset_and_hazards.md R154): every register and SEQ and PEND to R46, fresh draws for both
buffers. The configuration, the HOST and the turns are no state of the block and stay. -/
def State.resetBlock (s : State) : State :=
  { State.resetWith s.cfg with
    draws := s.draws + 2
    inBatch := s.draws
    outBatch := s.draws + 1
    resp := s.resp
    script := s.script
    vals := s.vals
    sched := s.sched }

/-- RST is asserted (R153): the reset step when the level rises; while it is already high the block is held as it is
(log 11). -/
def State.assertReset (s : State) : State :=
  match s.rst with
  | true => s
  | false => { s.resetBlock with rst := true }

/-- RST is released: the block is IDLE and serves transactions at once (R155). -/
def State.releaseReset (s : State) : State := { s with rst := false }

end Sys2Proof.Machine
end

