-- ==== Sys2Proof/Machine/Radix.lean ====
section
/-! DEFINITION. The conversion arithmetic on exact naturals (00_scope.md R10): Encode (41_encode.md R98 to R101) and
Decode (42_decode.md R112, R113, R117), as functions of an alphabet table. -/

namespace Sys2Proof.Machine

/-- The digits of X in a radix, least significant first, by repeated division: the loop of R99. `fuel` bounds the
passes; X of them are always enough. -/
def digitLoop (radix : Nat) : Nat → Nat → List Nat
  | 0, _ => []
  | fuel + 1, x => if x = 0 then [] else x % radix :: digitLoop radix fuel (x / radix)

/-- digits58(X), most significant first (R99). -/
def digits58 (x : Nat) : List Nat := (digitLoop 58 x x).reverse

/-- bytes256(X), the minimal big-endian bytes (R113). -/
def bytes256 (x : Nat) : List Byte := ((digitLoop 256 x x).reverse).map (BitVec.ofNat 8)

/-- val256(p), the big-endian value of a payload (R101). -/
def val256 : List Byte → Nat
  | [] => 0
  | b :: p => b.toNat * 256 ^ p.length + val256 p

/-- ALPHA[a][d]: the character of a digit (R35). -/
def charOf (table : List Byte) (d : Nat) : Byte := table.getD d 0#8

/-- inv(a, c): the digit of a character, or none (R36). -/
def inv (table : List Byte) (c : Byte) : Option Nat := table.findIdx? (fun t => t == c)

/-- The length of the longest prefix made of one byte: lzc with 0x00 (R100), zlc with the zero character (R117). -/
def leadingRun (c : Byte) (p : List Byte) : Nat := (p.takeWhile (fun b => b == c)).length

/-- lzc(p) (R100). -/
def lzc (p : List Byte) : Nat := leadingRun 0#8 p

/-- zlc(a, t) (R117). -/
def zlc (table t : List Byte) : Nat := leadingRun (charOf table 0) t

/-- enc(a, p) = (text, k) (R98). -/
def enc (table p : List Byte) : List Byte × Nat :=
  (List.replicate (lzc p) (charOf table 0) ++ (digits58 (val256 p)).map (charOf table), lzc p)

/-- What the scan of a text finds (R112): its value, or the first character met that is not in the alphabet. -/
inductive Scan where
  | value (x : Nat)
  | invalid (c : Byte) (index : Nat)
deriving DecidableEq, Repr

/-- The right-to-left scan (R112): the argument list is the text reversed from position `pos` on, `n` the text's
length, `x` the sum so far; the index reported counts from the left. -/
def scan (table : List Byte) (n : Nat) : List Byte → Nat → Nat → Scan
  | [], _, x => .value x
  | c :: cs, pos, x =>
    match inv table c with
    | none => .invalid c (n - 1 - pos)
    | some d => scan table n cs (pos + 1) (x + d * 58 ^ pos)

/-- What Decode answers (R112). -/
inductive Decoding where
  | ok (out : List Byte) (k : Nat)
  | invalidChar (c : Byte) (index : Nat)
deriving DecidableEq, Repr

/-- dec(a, t) (R112, R118). -/
def dec (table t : List Byte) : Decoding :=
  match scan table t.length t.reverse 0 0 with
  | .invalid c i => .invalidChar c i
  | .value x => .ok (List.replicate (zlc table t) 0#8 ++ bytes256 x) (zlc table t)

end Sys2Proof.Machine
end

