-- ==== Sys2Proof/Machine/Bus.lean ====
section
/-! DEFINITION. The slave port (20_memory.md): the address map, the byte lanes, bus errors, reads and writes. -/

namespace Sys2Proof.Machine

/-- n, the bytes of a transaction (R48). -/
def sizeBytes : Size → Nat
  | .byte => 1
  | .half => 2
  | .word => 4

/-- The system address of a block offset: BLOCK_BASE + off (R49). -/
def sysAddr (c : Config) (off : Nat) : Nat := c.blockBase + off

/-- The block offset a system address reaches, none outside the 0x30000-byte window (R49). -/
def blockOffset (c : Config) (addr : Nat) : Option Nat :=
  if c.blockBase ≤ addr ∧ addr < c.blockBase + 0x30000 then some (addr - c.blockBase) else none

/-- A transaction that ends with ERROR: misaligned, or a register access that is not 32 bits, or RST asserted (R53). -/
def busError (s : State) (off : Nat) (n : Size) : Bool :=
  decide (off % sizeBytes n ≠ 0) || (decide (off < 0x100) && decide (n ≠ .word)) || s.rst

/-- The value a register offset reads (10_state.md R19 to R34); the reserved ones read 0 (R44). -/
def regWord (s : State) (off : Nat) : Word :=
  match off with
  | 0x000 => idWord
  | 0x004 => s.ctrl.toWord
  | 0x008 => s.status.toWord
  | 0x00C => s.cmdLast
  | 0x010 => s.inLen
  | 0x014 => s.outLen
  | 0x018 => s.lzCount
  | 0x01C => s.errByte
  | 0x020 => s.errIndex
  | 0x024 => BitVec.ofNat 32 s.cfg.inCap
  | 0x028 => BitVec.ofNat 32 s.cfg.outCap
  | _ => 0

/-- Lane j of a word: data bits [8j+7 : 8j] (R51). -/
def lane (v : Word) (j : Nat) : Byte := v.extractLsb' (8 * j) 8

/-- The data word of consecutive bytes, the first in lane 0 (R51). -/
def lanes : List Byte → Word
  | [] => 0
  | b :: bs => b.zeroExtend 32 ||| lanes bs <<< 8

/-- The bytes of an n-byte write, lane 0 first (R51). -/
def writeLanes (n : Size) (v : Word) : List Byte := (List.range (sizeBytes n)).map (lane v)

/-- A byte of an alphabet window: the table's 58 bytes, then 0 (10_state.md R37). -/
def windowByte (table : List Byte) (d : Nat) : Byte := if d < 58 then charOf table d else 0

/-- An offset of IN_BUF below IN_CAP (R38). -/
def inWindow (c : Config) (off : Nat) : Bool := decide (0x10000 ≤ off ∧ off < 0x10000 + c.inCap)

/-- An offset of OUT_BUF below OUT_CAP (R39). -/
def outWindow (c : Config) (off : Nat) : Bool := decide (0x20000 ≤ off ∧ off < 0x20000 + c.outCap)

/-- The byte at a block offset, over the whole map (R50, R55): registers, alphabet windows, IN_BUF, OUT_BUF (stored
bytes, or fresh draws while BUSY, 40_sequencer.md R95), and 0 at every reserved offset (10_state.md R44). -/
def byteAt (s : State) (off : Nat) : Byte :=
  if off < 0x100 then lane (regWord s (off - off % 4)) (off % 4)
  else if off < 0x140 then windowByte s.cfg.alpha0 (off - 0x100)
  else if off < 0x180 then windowByte s.cfg.alpha1 (off - 0x140)
  else if inWindow s.cfg off then s.inByte (off - 0x10000)
  else if outWindow s.cfg off then
    (if s.status.busy then Config.freeByte s.draws (off - 0x20000) else s.outByte (off - 0x20000))
  else 0

/-- The data a read that ends OK returns (R55). -/
def readData (s : State) (off : Nat) (n : Size) : Word :=
  lanes ((List.range (sizeBytes n)).map (fun j => byteAt s (off + j)))

/-- After a read the block is as before (R55, R58); a read of OUT_BUF while BUSY has used up one batch of draws, so
that the next such read is a fresh one (R95; log 4). -/
def State.afterRead (off : Nat) (s : State) : State :=
  if s.status.busy && outWindow s.cfg off then { s with draws := s.draws + 1 } else s

/-- A write that ends OK (R56). -/
def busWrite (off : Nat) (n : Size) (v : Word) (s : State) : State :=
  match off with
  | 0x004 => s.writeCtrl v
  | 0x008 => s.writeStatus v
  | 0x00C => s.writeCmd v
  | 0x010 => s.writeInLen v
  | _ =>
    if 0x10000 ≤ off ∧ off - 0x10000 + sizeBytes n ≤ s.cfg.inCap then
      s.writeIn (off - 0x10000) (writeLanes n v)
    else s

end Sys2Proof.Machine
end

