-- ==== Sys2Proof/Machine/Convert.lean ====
section
/-! DEFINITION. ENCODE (spec 41_encode.md) and DECODE (spec 42_decode.md): the outcome each computes from IN_LEN,
IN_BUF[0 : IN_LEN] and the selected alphabet, and its completion. -/

namespace Sys2Proof.Machine

/-- The outcome of a conversion whose result is known: OUT_OVERFLOW if it does not fit (R104, R121, R136). -/
def fitted (outCap : Nat) (out : List Byte) (k : Nat) : Result :=
  if out.length > outCap then .fail .outOverflow true 0 0 else .ok out k

/-- The outcome r of ENCODE(a) (R103). -/
def encodeResult (a : Asel) (s : State) : Result :=
  if s.inLen.toNat > s.cfg.inCap then .fail .lenRange true 0 0
  else
    let r := enc (alphabet s.cfg a) (s.input s.inLen.toNat)
    fitted s.cfg.outCap r.1 r.2

/-- The outcome r of DECODE(a) (R119). -/
def decodeResult (a : Asel) (s : State) : Result :=
  if s.inLen.toNat > s.cfg.inCap then .fail .lenRange true 0 0
  else
    match dec (alphabet s.cfg a) (s.input s.inLen.toNat) with
    | .invalidChar c i => .fail .invalidChar true c i
    | .ok out k => fitted s.cfg.outCap out k

/-- ENCODE (R103). -/
def execEncode (a : Asel) (s : State) : Host.Outcome State Fault Refusal := .next (finish (encodeResult a s) s)

/-- DECODE (R119). -/
def execDecode (a : Asel) (s : State) : Host.Outcome State Fault Refusal := .next (finish (decodeResult a s) s)

end Sys2Proof.Machine
end

