-- ==== Sys2Proof/Machine/Nop.lean ====
section
/-! DEFINITION. NOP, and the completion of every word that is no command (spec 43_nop_illegal.md). -/

namespace Sys2Proof.Machine

/-- NOP: `return OkNoOutput` (R128). -/
def execNop (s : State) : Host.Outcome State Fault Refusal := .next (finish .okNoOutput s)

/-- ILLEGAL: `return Fail(ILLEGAL_CMD, false, 0, 0)` (R129). -/
def completeIllegal (s : State) : State := finish (.fail .illegalCmd false 0 0) s

end Sys2Proof.Machine
end

