-- ==== Sys2Proof/Machine/Dispatch.lean ====
section
/-! DEFINITION. One arm per command: the completion step of each (40_sequencer.md R93). -/

namespace Sys2Proof.Machine

def exec (i : Instr) (s : State) : Host.Outcome State Fault Refusal :=
  match i with
  | .nop => Sys2Proof.Machine.execNop s
  | .encode a => Sys2Proof.Machine.execEncode a s
  | .decode a => Sys2Proof.Machine.execDecode a s

end Sys2Proof.Machine
end

