-- ==== Sys2Proof/WellFormed.lean ====
section
/-! DEFINITION. Which configurations, addresses and script operations the spec admits. A term of `Instr` needs no
check: its one field has exactly the two values the table's field A has (30_encoding.md R84), so every term is the
meaning of a legal word. -/

namespace Sys2Proof

/-- A capacity: "multiple of 4 in 4..65536" (00_scope.md R8). -/
def capOk (n : Nat) : Bool := decide (4 ≤ n ∧ n ≤ 65536 ∧ n % 4 = 0)

/-- An alphabet: "exactly 58 distinct byte values", "no duplicates" (10_state.md R35). -/
def alphaOk (t : List Byte) : Bool := decide (t.length = 58 ∧ t.Nodup)

/-- BLOCK_BASE is "a multiple of 0x40000" (00_scope.md R8). -/
def baseOk (b : Nat) : Bool := decide (b % 0x40000 = 0)

/-- A configuration the spec admits. -/
def Config.wf (c : Config) : Bool :=
  capOk c.inCap && capOk c.outCap && baseOk c.blockBase && alphaOk c.alpha0 && alphaOk c.alpha1

/-- The system address of an operation. -/
def HostOp.addr : HostOp → Nat
  | .write a _ _ => a
  | .read a _ _ => a
  | .poll a _ _ => a

/-- The operation reaches the block: its address lies in the 0x30000-byte window at BLOCK_BASE (20_memory.md R49). -/
def HostOp.inWindow (c : Config) (op : HostOp) : Bool :=
  decide (c.blockBase ≤ op.addr ∧ op.addr < c.blockBase + 0x30000)

/-- The value an operation writes, if it names one, is among the results known when it is issued (R81). -/
def HostOp.boundIn (known : List Nat) : HostOp → Bool
  | .write _ _ (.result x) => known.contains x
  | .write _ _ (.lit _) => true
  | .read _ _ _ => true
  | .poll _ _ _ => true

/-- The names known after an operation. -/
def HostOp.binds (known : List Nat) : HostOp → List Nat
  | .read _ _ x => x :: known
  | .write _ _ _ => known
  | .poll _ _ _ => known

/-- A well-formed script: every operation reaches the block and writes a known value. R83 asks nothing more that a
machine could check: a command issued while BUSY "is well-formed but its command is dropped". -/
def scriptOk (c : Config) : List Nat → List HostOp → Bool
  | _, [] => true
  | known, op :: ops => op.inWindow c && op.boundIn known && scriptOk c (op.binds known) ops

end Sys2Proof
end

