-- ==== Sys2Proof/Machine/Agents.lean ====
section
/-! DEFINITION. The steps of the agents (00_scope.md R7): the ENGINE's completion step (40_sequencer.md R92), the
HOST's transactions (20_memory.md R55, R56, 30_encoding.md R81) and the RST input (70_reset_and_hazards.md R153). -/

namespace Sys2Proof.Machine

/-- The completion step is enabled exactly when SEQ = BUSY, and RST disables it (R91, R153). -/
def engineEnabled (s : State) : Bool := decide (s.seq = .busy) && !s.rst

/-- The completion step (R92): the command PEND decodes to is performed, or the illegal one (R93, R129). -/
def completion (s : State) : Host.Outcome State Fault Refusal :=
  match decodeWord s.pend with
  | .instr i => exec i s
  | .illegal _ => .next (completeIllegal s)

/-- The ENGINE's turn: the completion step if it is enabled, else nothing. -/
def engineStep (s : State) : Host.Outcome State Fault Refusal :=
  if engineEnabled s then completion s else .next s

/-- The value a script writes (R81): none where the named read has returned no data. -/
def hostVal (s : State) : HostVal → Option Word
  | .lit v => some v
  | .result x => s.vals.lookup x

/-- The HOST's transaction has faulted: its latest response is ERROR and BUS_ERROR_ACTION is a fault (20_memory.md
R53, 60_exceptions.md R138). It issues nothing more, so neither fact ever changes (log 8). -/
def State.hostHalted (s : State) : Bool :=
  decide (s.resp = some .error) && decide (s.cfg.busErrorAction = .fault)

/-- After an ERROR response the block is unchanged (20_memory.md R53) and the HOST does what BUS_ERROR_ACTION says
(60_exceptions.md R138): it goes on with `rest`, or it has faulted, and the operation that did not complete stays in
its script with all that follow it (log 8). -/
def State.hostError (rest : List HostOp) (s : State) : State :=
  match s.cfg.busErrorAction with
  | .ignore => { s with resp := some .error, script := rest }
  | .fault => { s with resp := some .error }

/-- A read that ended with ERROR returned no data, so its name has no value (R53). -/
def State.forget (x : Nat) (s : State) : State := { s with vals := s.vals.filter (fun p => p.1 != x) }

/-- A write at a block offset. -/
def hostWrite (off : Nat) (n : Size) (v : Word) (rest : List HostOp) (s : State) : State :=
  if busError s off n then s.hostError rest
  else { busWrite off n v s with resp := some .written, script := rest }

/-- A named read at a block offset. -/
def hostRead (off : Nat) (n : Size) (x : Nat) (rest : List HostOp) (s : State) : State :=
  if busError s off n then (s.forget x).hostError rest
  else
    { s.afterRead off with
      resp := some (.data (readData s off n))
      vals := (x, readData s off n) :: s.vals
      script := rest }

/-- One read of a POLL at a block offset: `again` is the script with the POLL still to do. -/
def hostPoll (off : Nat) (m v : Word) (again rest : List HostOp) (s : State) : State :=
  if busError s off .word then s.hostError again
  else
    { s.afterRead off with
      resp := some (.data (readData s off .word))
      script := if readData s off .word &&& m = v then rest else again }

/-- The HOST's operation at the block offset its address reaches. -/
def hostOp (op : HostOp) (off : Nat) (rest : List HostOp) (s : State) : Host.Outcome State Fault Refusal :=
  match op with
  | .write _ n v =>
    match hostVal s v with
    | some w => .next (hostWrite off n w rest s)
    | none => .fault .noValue
  | .read _ n x => .next (hostRead off n x rest s)
  | .poll a m v => .next (hostPoll off m v (.poll a m v :: rest) rest s)

/-- The HOST's turn: its next operation, or nothing when its script is done or its transaction has faulted. -/
def hostStep (s : State) : Host.Outcome State Fault Refusal :=
  if s.hostHalted then .next s
  else
    match s.script with
    | [] => .next s
    | op :: rest =>
      match blockOffset s.cfg op.addr with
      | some off => hostOp op off rest s
      | none => .fault .outsideWindow

/-- The state a step starts its turn from: the listed turn, if there is one, is used up (log 6). -/
def State.popTurn (s : State) : State := { s with sched := s.sched.tail }

/-- One turn (R7). -/
def turnStep (t : Turn) (s : State) : Host.Outcome State Fault Refusal :=
  match t with
  | .host => hostStep s
  | .engine => engineStep s
  | .rstAssert => .next s.assertReset
  | .rstRelease => .next s.releaseReset

/-- The step when no turn is listed: the completion step if it is enabled, so that an enabled one is always taken in
the end (weak fairness, R91), else the HOST's (log 6). -/
def freeStep (s : State) : Host.Outcome State Fault Refusal :=
  if engineEnabled s then completion s else hostStep s

/-- The command in flight is `w` and the next turn is the ENGINE's: what a CMD write of `w` that was just accepted
leaves, with RST released (R86, R88; log 13). -/
def State.placeCommand (w : Word) (s : State) : State :=
  { s.accept w with rst := false, sched := .engine :: s.sched }

end Sys2Proof.Machine
end

