-- ==== Sys2Proof/Machine/Step.lean ====
section
/-! DEFINITION. The one step of the machine (00_scope.md R7, 60_exceptions.md R141: "no simultaneity"). -/

namespace Sys2Proof.Machine

/-- One step: the next listed turn, or the default one. -/
def step (s : State) : Host.Outcome State Fault Refusal :=
  match s.sched with
  | t :: ts => turnStep t { s with sched := ts }
  | [] => freeStep s

/-- `s` with the command word in flight, so that the very next step is its completion (log 13). -/
def State.withFetchWord (s : State) (nbits w : Nat) : State := s.placeCommand (probeWord nbits w)

end Sys2Proof.Machine
end

