-- ==== Sys2Proof/Machine/Script.lean ====
section
/-! DEFINITION. The host script notation of 30_encoding.md: the operations of R81 at block offsets, and the
expansions of the pseudo-operations of R82. -/

namespace Sys2Proof.Machine

/-- `W32 off, v` (R81). -/
def w32 (c : Config) (off : Nat) (v : Word) : HostOp := .write (sysAddr c off) .word (.lit v)

/-- `W16 off, v` (R81). -/
def w16 (c : Config) (off : Nat) (v : Word) : HostOp := .write (sysAddr c off) .half (.lit v)

/-- `W8 off, v` (R81). -/
def w8 (c : Config) (off : Nat) (v : Word) : HostOp := .write (sysAddr c off) .byte (.lit v)

/-- `W32 off, x` with x the name of an earlier read's result (95_test_vectors.md P5). -/
def w32Result (c : Config) (off x : Nat) : HostOp := .write (sysAddr c off) .word (.result x)

/-- `R32 off -> x` (R81). -/
def r32 (c : Config) (off x : Nat) : HostOp := .read (sysAddr c off) .word x

/-- `R16 off -> x` (R81). -/
def r16 (c : Config) (off x : Nat) : HostOp := .read (sysAddr c off) .half x

/-- `R8 off -> x` (R81). -/
def r8 (c : Config) (off x : Nat) : HostOp := .read (sysAddr c off) .byte x

/-- `POLL off, m, v` (R81). -/
def poll (c : Config) (off : Nat) (m v : Word) : HostOp := .poll (sysAddr c off) m v

/-- `ISSUE c` (R82). -/
def issue (c : Config) (cmd : CmdText) : List HostOp := [w32 c 0x00C cmd.toWord]

/-- `WAITDONE` (R82). -/
def waitDone (c : Config) : List HostOp := [poll c 0x008 0x2#32 0x2#32]

/-- `RUN c` (R82). -/
def runCmd (c : Config) (cmd : CmdText) : List HostOp := issue c cmd ++ waitDone c

/-- `ACK` (R82). -/
def ack (c : Config) : List HostOp := [w32 c 0x008 0xA#32]

/-- The words of `PUT s`: w = 0 .. ceil(len(s)/4) - 1, the bytes past the end 0x00 (R82). -/
def putWords (s : List Byte) : List Word :=
  (List.range ((s.length + 3) / 4)).map
    (fun w => lanes [s.getD (4 * w) 0, s.getD (4 * w + 1) 0, s.getD (4 * w + 2) 0, s.getD (4 * w + 3) 0])

/-- `PUT s` (R82): the words from IN_BUF on, then IN_LEN. -/
def put (c : Config) (s : List Byte) : List HostOp :=
  (putWords s).zipIdx.map (fun p => w32 c (0x10000 + 4 * p.2) p.1) ++ [w32 c 0x010 (BitVec.ofNat 32 s.length)]

/-- `GET n -> y` (R82): the result of OUT_BUF + i is named y + i. -/
def getOut (c : Config) (n y : Nat) : List HostOp :=
  (List.range n).map (fun i => r8 c (0x20000 + i) (y + i))

/-- What `EXPECT x = v` asserts of the state it stands at (R81): the result named x is v. -/
def expects (s : State) (x : Nat) (v : Word) : Bool := s.vals.lookup x == some v

/-- The end of a run of a host script (70_reset_and_hazards.md R170): its last operation has completed and SEQ = IDLE.
An operation leaves the script only by completing: a POLL whose condition has not come, and a transaction that faulted
(log 8), are still in it. -/
def runEnded (s : State) : Bool := s.script.isEmpty && decide (s.seq = .idle)

end Sys2Proof.Machine
end

