-- ==== Sys2Proof/Safety.lean ====
section
/-! DEFINITION. What holds of every reachable state, in the terms the claims use: the invariants of 10_state.md R47,
the canonical form of the buffers, and the state RST holds (70_reset_and_hazards.md R153); and the relations between
states that the claims speak of. -/

namespace Sys2Proof.Machine

/-- The registers and SEQ and PEND at their values after reset (10_state.md R46). -/
structure State.AtReset (s : State) : Prop where
  ctrl : s.ctrl = { ie := false }
  status : s.status = { busy := false, done := false, err := false, ovr := false, errcode := 0 }
  cmdLast : s.cmdLast = 0
  inLen : s.inLen = 0
  outLen : s.outLen = 0
  lzCount : s.lzCount = 0
  errByte : s.errByte = 0
  errIndex : s.errIndex = 0
  seq : s.seq = .idle
  pend : s.pend = 0

/-- The invariants of R47, (a) to (e). -/
structure State.R47 (s : State) : Prop where
  in_flight : s.status.busy = true →
    s.status.done = false ∧ s.status.err = false ∧ s.status.errcode = 0 ∧ s.outLen = 0 ∧ s.lzCount = 0 ∧
      s.errByte = 0 ∧ s.errIndex = 0
  err_code : s.status.err = true ↔ s.status.errcode ≠ 0
  err_empty : s.status.err = true → s.outLen = 0 ∧ s.lzCount = 0
  diagnostics : s.errByte ≠ 0 ∨ s.errIndex ≠ 0 → s.status.errcode = ErrCode.invalidChar.code
  out_len : s.outLen.toNat ≤ s.cfg.outCap

/-- R47 with what R23, R27, R32 and R40 say of the registers. -/
structure State.RegInv (s : State) : Prop where
  r47 : s.R47
  /-- R23: BUSY "equals 1 exactly when SEQ = BUSY". -/
  busy_seq : s.status.busy = true ↔ s.seq = .busy
  /-- R27: "Codes 5 to 15 are never produced". -/
  code_produced : s.status.errcode.toNat ≤ 4
  /-- R32: "ERR_BYTE[31:8] always reads 0". -/
  err_byte : s.errByte.toNat < 256
  /-- R40: CMD_LAST "equals PEND while BUSY". -/
  pend_last : s.seq = .busy → s.cmdLast = s.pend

/-- The storage of the buffers: both in canonical form below their capacities, the result bytes listed (R39: after a
success OUT_BUF[0 : OUT_LEN] holds the result), and the batches of draws used up (log 4). -/
structure State.BufInv (s : State) : Prop where
  in_wf : s.inBuf.wf s.cfg.inCap = true
  out_wf : s.outBuf.wf s.cfg.outCap = true
  result_listed : ∀ i, i < s.outLen.toNat → (s.outBuf.get i).isSome = true
  in_drawn : s.inBatch < s.draws
  out_drawn : s.outBatch < s.draws
  apart : s.inBatch ≠ s.outBatch

/-- The invariant of the machine. -/
structure State.Inv (s : State) : Prop where
  cfg_wf : s.cfg.wf = true
  reg : s.RegInv
  buf : s.BufInv
  /-- R153: "While RST is asserted, the block holds every piece of state at the reset values". -/
  held : s.rst = true → s.AtReset ∧ s.inBuf = [] ∧ s.outBuf = []

/-- The block's own state is the same in both: everything but the port, the HOST, the turns and the counter of
draws. -/
structure State.SameBlock (s t : State) : Prop where
  cfg : t.cfg = s.cfg
  rst : t.rst = s.rst
  ctrl : t.ctrl = s.ctrl
  status : t.status = s.status
  cmdLast : t.cmdLast = s.cmdLast
  inLen : t.inLen = s.inLen
  outLen : t.outLen = s.outLen
  lzCount : t.lzCount = s.lzCount
  errByte : t.errByte = s.errByte
  errIndex : t.errIndex = s.errIndex
  inBuf : t.inBuf = s.inBuf
  outBuf : t.outBuf = s.outBuf
  inBatch : t.inBatch = s.inBatch
  outBatch : t.outBatch = s.outBatch
  seq : t.seq = s.seq
  pend : t.pend = s.pend

/-- The HOST goes on, and its next operation is a write of `w` that reaches the block at `off`. -/
def State.hostWrites (s : State) (off : Nat) (n : Size) (w : Word) : Prop :=
  s.hostHalted = false ∧ ∃ a v rest, s.script = .write a n v :: rest ∧ blockOffset s.cfg a = some off ∧ hostVal s v = some w

/-- How an operation leaves the script: a write or a named read by its OK response, a POLL by a read that shows its
condition, and any but a POLL by an ERROR the HOST ignores (70_reset_and_hazards.md R170; log 8). -/
def completesWith (op : HostOp) (c : Config) (r : Option Response) : Prop :=
  (r = some .written ∧ ∃ a n v, op = .write a n v) ∨
  (∃ w, r = some (.data w) ∧ ((∃ a n x, op = .read a n x) ∨ ∃ a m v, op = .poll a m v ∧ w &&& m = v)) ∨
  (r = some .error ∧ c.busErrorAction = .ignore ∧ ∀ a m v, op ≠ .poll a m v)

/-- The HOST can be waited for: no turn is listed, RST is released, the block is IDLE, and no transaction of the HOST
has faulted. -/
structure State.Ready (s : State) : Prop where
  sched : s.sched = []
  rst : s.rst = false
  seq : s.seq = .idle
  running : s.hostHalted = false

/-- Two states that agree on all a command may read (40_sequencer.md R94): PEND, IN_LEN,
IN_BUF[0 : min(IN_LEN, IN_CAP)], the alphabet tables and the capacities. -/
structure State.SameInputs (s t : State) : Prop where
  cfg : t.cfg = s.cfg
  pend : t.pend = s.pend
  inLen : t.inLen = s.inLen
  input : ∀ i, i < min s.inLen.toNat s.cfg.inCap → t.inByte i = s.inByte i

/-- Every byte of IN_BUF[0 : n] was written since the last reset: the premise of 70_reset_and_hazards.md R158. -/
def State.inputWritten (s : State) (n : Nat) : Bool := (List.range n).all (fun i => (s.inBuf.get i).isSome)

/-- The value of a digit list, Σ ds[i] * 58^(n-1-i) (41_encode.md R99, 42_decode.md R115). -/
def val58 (ds : List Nat) : Nat := ∑ i ∈ Finset.range ds.length, ds.getD i 0 * 58 ^ (ds.length - 1 - i)

end Sys2Proof.Machine
end

