-- ==== Sys2Proof/Certificates/Slice0/Obligations.lean ====
section
/-! DEFINITION. The statements for the provers. Each docstring names the rule of spec/ it formalises. None rests on
the value of a draw, of `draws`, `inBatch` or `outBatch` at reset, or on the configuration of `State.reset`. -/

open Sys2Proof Sys2Proof.Machine

/-! ### Encoding (30_encoding.md) -/

/-- Every command's word decodes to it (R73 to R75, R77). -/
def Obligations.EncodedWordDecodesToItsCommand : Prop :=
  ∀ i : Instr, decodeWord (encode i) = .instr i

/-- R77: exactly five words are legal, and every other one is ILLEGAL. -/
def Obligations.ExactlyFiveWordsAreLegal : Prop :=
  decodeWord 0x00000000#32 = .instr .nop ∧
  decodeWord 0x00000001#32 = .instr (.encode .a0) ∧
  decodeWord 0x00000011#32 = .instr (.encode .a1) ∧
  decodeWord 0x00000002#32 = .instr (.decode .a0) ∧
  decodeWord 0x00000012#32 = .instr (.decode .a1) ∧
  ∀ w : Word, w ∉ [0x00000000#32, 0x00000001#32, 0x00000011#32, 0x00000002#32, 0x00000012#32] →
    ∃ r, decodeWord w = .illegal r

/-- R84: the decoder and the opcode table's rows (match, mask, A = w[4]) read every word alike. -/
def Obligations.DecoderReadsTheOpcodeTable : Prop :=
  ∀ w : Word,
    (decodeWord w = .instr .nop ↔ w &&& 0xFFFFFFFF#32 = 0x00000000#32) ∧
    (∀ a : Asel, decodeWord w = .instr (.encode a) ↔
      w &&& 0xFFFFFFEF#32 = 0x00000001#32 ∧ (w.getLsbD 4 = true ↔ a = .a1)) ∧
    (∀ a : Asel, decodeWord w = .instr (.decode a) ↔
      w &&& 0xFFFFFFEF#32 = 0x00000002#32 ∧ (w.getLsbD 4 = true ↔ a = .a1)) ∧
    ((∃ r, decodeWord w = .illegal r) ↔
      w &&& 0xFFFFFFFF#32 ≠ 0x00000000#32 ∧ w &&& 0xFFFFFFEF#32 ≠ 0x00000001#32 ∧
        w &&& 0xFFFFFFEF#32 ≠ 0x00000002#32)

/-- Words written out from R73 and R77, through the decoder of the bytes as the bus carries them. -/
def Obligations.WrittenOutWordsDecode : Prop :=
  decodeTableWord 32 0b00000000000000000000000000000000 = some .nop ∧
  decodeTableWord 32 0b00000000000000000000000000000001 = some (.encode .a0) ∧
  decodeTableWord 32 0b00000000000000000000000000010001 = some (.encode .a1) ∧
  decodeTableWord 32 0b00000000000000000000000000000010 = some (.decode .a0) ∧
  decodeTableWord 32 0b00000000000000000000000000010010 = some (.decode .a1) ∧
  decodeTableWord 32 0b00000000000000000000000000100001 = none ∧
  decodeTableWord 32 0b00000000000000000000000100000001 = none ∧
  decodeTableWord 32 0b00000000000000000000000000000011 = none

/-! ### NOP and illegal words (43_nop_illegal.md) -/

/-- NOP's completion, whole (40_sequencer.md R92, OkNoOutput): only STATUS and SEQ change. -/
def Obligations.NopCompletesWithoutOutput : Prop :=
  ∀ s : State, exec .nop s = .next
    { s with
      seq := .idle
      status := { busy := false, done := true, err := false, ovr := s.status.ovr, errcode := 0 } }

/-- R128: a NOP issued while IDLE is accepted and completes; one issued while BUSY is dropped. That an OUT_BUF read in
flight is `Config.freeByte s.draws i` is the model's form of a draw (log 4). -/
def Obligations.NopCommandClearsTheErrorState : Prop :=
  (∀ s : State, s.seq = .idle →
    s.writeCmd 0x00000000#32 = s.accept 0x00000000#32 ∧
    ∃ t, completion (s.accept 0x00000000#32) = .next t ∧
      t.status = { busy := false, done := true, err := false, ovr := s.status.ovr, errcode := 0 } ∧
      t.outLen = 0 ∧ t.lzCount = 0 ∧ t.errByte = 0 ∧ t.errIndex = 0 ∧ t.seq = .idle ∧
      (∀ i, t.outByte i = s.outByte i) ∧ (∀ i, t.inByte i = s.inByte i) ∧
      (s.cfg.wf = true → ∀ i, i < s.cfg.outCap →
        byteAt (s.accept 0x00000000#32) (0x20000 + i) = Config.freeByte s.draws i ∧
        byteAt t (0x20000 + i) = s.outByte i) ∧
      (s.status.toWord = 0x00000106#32 → t.status.toWord = 0x00000002#32)) ∧
  (∀ s : State, s.seq = .busy →
    s.writeCmd 0x00000000#32 = { s with status := { s.status with ovr := true } })

/-- R129: an illegal word is accepted exactly like a legal one and completes with ILLEGAL_CMD, whatever IN_LEN. -/
def Obligations.IllegalCommandCompletesWithItsCode : Prop :=
  ∀ (s : State) (w : Word) (r : IllegalWord), decodeWord w = .illegal r → s.seq = .idle → s.rst = false →
    busError s 0x00C .word = false ∧ s.writeCmd w = s.accept w ∧
    ∃ t, completion (s.accept w) = .next t ∧
      t.status = { busy := false, done := true, err := true, ovr := s.status.ovr, errcode := 4 } ∧
      t.outLen = 0 ∧ t.lzCount = 0 ∧ t.errByte = 0 ∧ t.errIndex = 0 ∧ t.cmdLast = w ∧ t.seq = .idle ∧
      (∀ i, t.outByte i = s.outByte i) ∧ (∀ i, t.inByte i = s.inByte i) ∧ t.inLen = s.inLen ∧ t.ctrl = s.ctrl ∧
      (w = 0x00000003#32 → s.status.ovr = false → t.status.toWord = 0x00000406#32)

/-- R130, R131, R132: the reserved OP values, the reserved ASEL values and a non-zero RSVD are all illegal commands. -/
def Obligations.ReservedFieldsAreIllegalCommands : Prop :=
  ∀ s : State,
    (3 ≤ (s.pend.extractLsb' 0 4).toNat ∨
      ((s.pend.extractLsb' 0 4 = 1#4 ∨ s.pend.extractLsb' 0 4 = 2#4) ∧ 2 ≤ (s.pend.extractLsb' 4 4).toNat) ∨
      (s.pend.extractLsb' 0 4 = 0#4 ∧ s.pend.extractLsb' 4 4 ≠ 0#4) ∨
      s.pend.extractLsb' 8 24 ≠ 0#24) →
    completion s = .next (finish (.fail .illegalCmd false 0 0) s)

/-! ### ENCODE and DECODE (41_encode.md, 42_decode.md) -/

/-- R103, R104, R105: ENCODE's words, and its completion in each of its cases, as the next state's registers, bytes
and flags; R103's worked example, with the table the spec gives (log 3). -/
def Obligations.EncodeCommandOutcome : Prop :=
  decodeWord 0x00000001#32 = .instr (.encode .a0) ∧ decodeWord 0x00000011#32 = .instr (.encode .a1) ∧
  enc alphaBitcoin [0x61#8, 0x62#8, 0x63#8] = ([0x5A#8, 0x69#8, 0x43#8, 0x61#8], 0) ∧
  ∀ (s : State) (a : Asel), s.cfg.wf = true → ∃ t, exec (.encode a) s = .next t ∧
    t.status.done = true ∧ t.status.busy = false ∧ t.status.ovr = s.status.ovr ∧ t.seq = .idle ∧
    (∀ i, t.inByte i = s.inByte i) ∧
    (s.cfg.inCap < s.inLen.toNat →
      t.status.err = true ∧ t.status.errcode = 2 ∧ t.outLen = 0 ∧ t.lzCount = 0 ∧ t.errByte = 0 ∧ t.errIndex = 0) ∧
    (s.inLen.toNat ≤ s.cfg.inCap →
      ∀ text k, enc (alphabet s.cfg a) (s.input s.inLen.toNat) = (text, k) →
      (s.cfg.outCap < text.length →
        t.status.err = true ∧ t.status.errcode = 3 ∧ t.outLen = 0 ∧ t.lzCount = 0 ∧ t.errByte = 0 ∧
          t.errIndex = 0) ∧
      (text.length ≤ s.cfg.outCap →
        t.status.err = false ∧ t.status.errcode = 0 ∧ t.outLen.toNat = text.length ∧ t.lzCount.toNat = k ∧
          t.output text.length = text))

/-- R119, R120: DECODE's words, and its completion in each of its cases; R119's worked example, with the table the
spec gives (log 3). -/
def Obligations.DecodeCommandOutcome : Prop :=
  decodeWord 0x00000002#32 = .instr (.decode .a0) ∧ decodeWord 0x00000012#32 = .instr (.decode .a1) ∧
  dec alphaBitcoin [0x5A#8, 0x69#8, 0x43#8, 0x61#8] = .ok [0x61#8, 0x62#8, 0x63#8] 0 ∧
  ∀ (s : State) (a : Asel), s.cfg.wf = true → ∃ t, exec (.decode a) s = .next t ∧
    t.status.done = true ∧ t.status.busy = false ∧ t.status.ovr = s.status.ovr ∧ t.seq = .idle ∧
    (∀ i, t.inByte i = s.inByte i) ∧
    (s.cfg.inCap < s.inLen.toNat →
      t.status.err = true ∧ t.status.errcode = 2 ∧ t.outLen = 0 ∧ t.lzCount = 0 ∧ t.errByte = 0 ∧ t.errIndex = 0) ∧
    (s.inLen.toNat ≤ s.cfg.inCap →
      (∀ c i, dec (alphabet s.cfg a) (s.input s.inLen.toNat) = .invalidChar c i →
        t.status.err = true ∧ t.status.errcode = 1 ∧ t.outLen = 0 ∧ t.lzCount = 0 ∧ t.errByte = c.zeroExtend 32 ∧
          t.errIndex.toNat = i) ∧
      (∀ out k, dec (alphabet s.cfg a) (s.input s.inLen.toNat) = .ok out k →
        (s.cfg.outCap < out.length →
          t.status.err = true ∧ t.status.errcode = 3 ∧ t.outLen = 0 ∧ t.lzCount = 0 ∧ t.errByte = 0 ∧
            t.errIndex = 0) ∧
        (out.length ≤ s.cfg.outCap →
          t.status.err = false ∧ t.status.errcode = 0 ∧ t.outLen.toNat = out.length ∧ t.lzCount.toNat = k ∧
            t.output out.length = out)))

/-- The frame of NOP, ENCODE and DECODE (R92: "No other state changes"): the registers, every byte of IN_BUF, every
byte of the block's address map outside the result registers and OUT_BUF, and for NOP every byte of OUT_BUF. -/
def Obligations.CompletionFrame : Prop :=
  ∀ (i : Instr) (s t : State), exec i s = .next t →
    t.cfg = s.cfg ∧ t.rst = s.rst ∧ t.ctrl = s.ctrl ∧ t.status.ovr = s.status.ovr ∧ t.cmdLast = s.cmdLast ∧
    t.inLen = s.inLen ∧ t.pend = s.pend ∧ t.resp = s.resp ∧ t.script = s.script ∧ t.vals = s.vals ∧
    t.sched = s.sched ∧
    (∀ j, t.inByte j = s.inByte j) ∧
    (∀ off, off ∉ [0x008, 0x009, 0x00A, 0x00B] → ¬ (0x014 ≤ off ∧ off < 0x024) → outWindow s.cfg off = false →
      byteAt t off = byteAt s off) ∧
    (i = .nop → (∀ j, t.outByte j = s.outByte j) ∧ t.outLen = s.outLen ∧ t.lzCount = s.lzCount ∧
      t.errByte = s.errByte ∧ t.errIndex = s.errIndex)

/-- R140: the one error code a completion reports, in the order ILLEGAL_CMD, LEN_RANGE, INVALID_CHAR (the rightmost),
OUT_OVERFLOW. -/
def Obligations.ErrorPriority : Prop :=
  ∀ s t : State, completion s = .next t →
    (∀ r, decodeWord s.pend = .illegal r → t.status.errcode = 4) ∧
    (decodeWord s.pend = .instr .nop → t.status.errcode = 0) ∧
    (∀ a, decodeWord s.pend = .instr (.encode a) →
      t.status.errcode =
        if s.cfg.inCap < s.inLen.toNat then 2
        else if s.cfg.outCap < (enc (alphabet s.cfg a) (s.input s.inLen.toNat)).1.length then 3 else 0) ∧
    (∀ a, decodeWord s.pend = .instr (.decode a) →
      (s.cfg.inCap < s.inLen.toNat → t.status.errcode = 2) ∧
      (s.inLen.toNat ≤ s.cfg.inCap →
        (∃ c ∈ s.input s.inLen.toNat, inv (alphabet s.cfg a) c = none) →
        t.status.errcode = 1 ∧ ∃ c, (s.input s.inLen.toNat)[t.errIndex.toNat]? = some c ∧
          inv (alphabet s.cfg a) c = none ∧ t.errByte = c.zeroExtend 32 ∧
          ∀ j d, t.errIndex.toNat < j → (s.input s.inLen.toNat)[j]? = some d → inv (alphabet s.cfg a) d ≠ none) ∧
      (s.inLen.toNat ≤ s.cfg.inCap → (∀ c ∈ s.input s.inLen.toNat, inv (alphabet s.cfg a) c ≠ none) →
        t.status.errcode =
          if s.cfg.outCap <
              zlc (alphabet s.cfg a) (s.input s.inLen.toNat) +
                (bytes256 (val58 ((s.input s.inLen.toNat).filterMap (inv (alphabet s.cfg a))))).length
          then 3 else 0))

/-- R94: all a completion writes but the drawn bytes depends on PEND, IN_LEN, IN_BUF[0 : min(IN_LEN, IN_CAP)] and the
alphabet tables alone. -/
def Obligations.OutcomeDependsOnInputsAlone : Prop :=
  ∀ s t s' t' : State, s.SameInputs t → s.RegInv → t.RegInv → s.seq = .busy → t.seq = .busy →
    completion s = .next s' → completion t = .next t' →
    t'.status.busy = s'.status.busy ∧ t'.status.done = s'.status.done ∧ t'.status.err = s'.status.err ∧
    t'.status.errcode = s'.status.errcode ∧ t'.outLen = s'.outLen ∧ t'.lzCount = s'.lzCount ∧
    t'.errByte = s'.errByte ∧ t'.errIndex = s'.errIndex ∧ t'.seq = s'.seq ∧
    (∀ i, i < s'.outLen.toNat → t'.outByte i = s'.outByte i)

/-- A command's meaning never faults and never refuses: the block takes no traps (60_exceptions.md R142). -/
def Obligations.CommandsAlwaysComplete : Prop :=
  ∀ (i : Instr) (s : State), ∃ t, exec i s = .next t ∧ t.status.done = true ∧ t.seq = .idle

/-! ### The conversion arithmetic -/

/-- R99: digits58 is the positional notation without a leading zero digit. -/
def Obligations.Digits58IsMinimalPositional : Prop :=
  digits58 0 = [] ∧
  ∀ x : Nat, 0 < x →
    (∀ d ∈ digits58 x, d < 58) ∧ (digits58 x).head? ≠ some 0 ∧ digits58 x ≠ [] ∧
    58 ^ ((digits58 x).length - 1) ≤ x ∧ x < 58 ^ (digits58 x).length ∧ x = val58 (digits58 x)

/-- R113: bytes256 is the one byte list without a leading zero byte that has the value, of the least length. -/
def Obligations.Bytes256IsMinimalBigEndian : Prop :=
  bytes256 0 = [] ∧
  ∀ x : Nat, 0 < x →
    (bytes256 x).head? ≠ some 0#8 ∧ val256 (bytes256 x) = x ∧
    (∀ b : List Byte, b.head? ≠ some 0#8 → val256 b = x → b = bytes256 x) ∧
    x < 256 ^ (bytes256 x).length ∧ (∀ l, x < 256 ^ l → (bytes256 x).length ≤ l)

/-- R101: the big-endian value as the sum of its digits' weights. -/
def Obligations.Val256IsTheBigEndianSum : Prop :=
  val256 [] = 0 ∧
  ∀ p : List Byte, val256 p = ∑ i ∈ Finset.range p.length, (p.getD i 0#8).toNat * 256 ^ (p.length - 1 - i)

/-- R100 and R117: the leading-zero counts are the largest counts of a prefix of zero bytes, of zero characters. -/
def Obligations.LeadingCountsAreTheLongestRun : Prop :=
  ∀ (table p : List Byte),
    (lzc p ≤ p.length ∧ (∀ i, i < lzc p → p[i]? = some 0#8) ∧ p[lzc p]? ≠ some 0#8) ∧
    (zlc table p ≤ p.length ∧ (∀ i, i < zlc table p → p[i]? = some (charOf table 0)) ∧
      p[zlc table p]? ≠ some (charOf table 0))

/-- R36: the inverse map gives the one digit of a character of the table, and none for every other byte. -/
def Obligations.InverseMapInvertsTheTable : Prop :=
  ∀ (table : List Byte) (c : Byte), alphaOk table = true →
    (∀ d, inv table c = some d ↔ d < 58 ∧ charOf table d = c) ∧
    (inv table c = none ↔ ∀ d, d < 58 → charOf table d ≠ c)

/-- R106, R107: leading zero bytes become as many zero characters, and the rest of the text does not begin with one, so
the text's leading-zero count is the payload's. -/
def Obligations.LeadingZerosArePreserved : Prop :=
  ∀ (table q : List Byte) (k : Nat), alphaOk table = true → q.head? ≠ some 0#8 →
    enc table (List.replicate k 0#8 ++ q) = (List.replicate k (charOf table 0) ++ (enc table q).1, k) ∧
    (enc table q).1.head? ≠ some (charOf table 0) ∧
    zlc table (enc table (List.replicate k 0#8 ++ q)).1 = k ∧
    enc table (List.replicate k 0#8) = (List.replicate k (charOf table 0), k)

/-- R109: the text has one character for each leading zero byte, then the least number of digits that hold the value. -/
def Obligations.TextLengthIsMinimal : Prop :=
  ∀ table p : List Byte, ∃ m, (enc table p).1.length = lzc p + m ∧ val256 p < 58 ^ m ∧
    ∀ l, val256 p < 58 ^ l → m ≤ l

/-- 00_scope.md R9: in a configuration as large as the reference one or with OUT_CAP not below IN_CAP, OUT_OVERFLOW
is not reported for ENCODE, or for DECODE. -/
def Obligations.LargeOutputBufferNeverOverflows : Prop :=
  (∀ (s t : State) (a : Asel), s.cfg.inCap ≤ 128 → 175 ≤ s.cfg.outCap → exec (.encode a) s = .next t →
    t.status.errcode ≠ 3) ∧
  (∀ (s t : State) (a : Asel), s.cfg.wf = true → s.cfg.inCap ≤ s.cfg.outCap → exec (.decode a) s = .next t →
    t.status.errcode ≠ 3)

/-- R112, R115, R118: a text of valid characters decodes to its zero prefix and the bytes of the value its digits spell,
which is below 58^n, in no more bytes than it has characters. -/
def Obligations.ValidTextDecodesToItsValue : Prop :=
  ∀ (table : List Byte) (ds : List Nat), alphaOk table = true → (∀ d ∈ ds, d < 58) →
    ∃ k, k = zlc table (ds.map (charOf table)) ∧
      dec table (ds.map (charOf table)) = .ok (List.replicate k 0#8 ++ bytes256 (val58 ds)) k ∧
      val58 ds < 58 ^ ds.length ∧ k + (bytes256 (val58 ds)).length ≤ ds.length

/-- R114: DECODE's scan reports the rightmost byte that is not in the alphabet, with its index from the left, and it
reports one exactly when there is one; the rule's example "0O", with the table the spec gives (log 3). -/
def Obligations.RightmostInvalidCharacterReported : Prop :=
  dec alphaBitcoin [0x30#8, 0x4F#8] = .invalidChar 0x4F#8 1 ∧
  ∀ (table t : List Byte),
    (∀ (c : Byte) (i : Nat), dec table t = .invalidChar c i ↔
      t[i]? = some c ∧ inv table c = none ∧ ∀ j d, i < j → t[j]? = some d → inv table d ≠ none) ∧
    ((∃ c i, dec table t = .invalidChar c i) ↔ ∃ c ∈ t, inv table c = none)

/-- R123, R124: a text of n zero characters decodes to n zero bytes, the empty one to the empty payload. -/
def Obligations.ZeroTextDecodesToZeroBytes : Prop :=
  ∀ (table : List Byte) (n : Nat), alphaOk table = true →
    dec table (List.replicate n (charOf table 0)) = .ok (List.replicate n 0#8) n

/-- R125: decoding an encoding gives the payload back, and every text that decodes is the encoding of its decoding. -/
def Obligations.ConversionRoundTrip : Prop :=
  ∀ table : List Byte, alphaOk table = true →
    (∀ p : List Byte, dec table (enc table p).1 = .ok p (lzc p)) ∧
    (∀ (t out : List Byte) (k : Nat), dec table t = .ok out k → enc table out = (t, k))

/-- R35, R126, with the tables the spec gives (log 3): each has 58 distinct bytes and begins with '1'; no '0', 'O',
'I', 'l', 0x00, or byte above 0x7F is in either; a byte is valid in both or in neither. -/
def Obligations.BuiltInAlphabets : Prop :=
  alphaOk alphaBitcoin = true ∧ alphaOk alphaFlickr = true ∧
  charOf alphaBitcoin 0 = 0x31#8 ∧ charOf alphaFlickr 0 = 0x31#8 ∧
  (∀ c ∈ [0x30#8, 0x4F#8, 0x49#8, 0x6C#8, 0x00#8], inv alphaBitcoin c = none ∧ inv alphaFlickr c = none) ∧
  (∀ c : Byte, 0x80 ≤ c.toNat → inv alphaBitcoin c = none) ∧
  (∀ c : Byte, inv alphaBitcoin c = none ↔ inv alphaFlickr c = none)

/-- R111: the worked examples of enc with alphabet 0, with the table the spec gives (log 3). -/
def Obligations.EncodeWorkedExamples : Prop :=
  enc alphaBitcoin [] = ([], 0) ∧
  enc alphaBitcoin [0#8] = ([0x31#8], 1) ∧
  enc alphaBitcoin [97#8, 98#8, 99#8] = ([0x5A#8, 0x69#8, 0x43#8, 0x61#8], 0) ∧
  val256 [97#8, 98#8, 99#8] = 6382179 ∧ digits58 6382179 = [32, 41, 11, 33] ∧
  enc alphaBitcoin [0#8, 97#8, 98#8, 99#8] = ([0x31#8, 0x5A#8, 0x69#8, 0x43#8, 0x61#8], 1)

/-- The machine's round trip (42_decode.md R125, 95_test_vectors.md S11): a successful ENCODE, its text then given to
DECODE in a block of the same configuration, gives back the input bytes, their number and their leading-zero count. -/
def Obligations.EncodeThenDecodeRestoresTheInput : Prop :=
  ∀ (s t u : State) (a : Asel), s.cfg.wf = true → exec (.encode a) s = .next t → t.status.err = false →
    u.cfg = s.cfg → u.inLen = t.outLen → t.outLen.toNat ≤ s.cfg.inCap → s.inLen.toNat ≤ s.cfg.outCap →
    u.input u.inLen.toNat = t.output t.outLen.toNat →
    ∃ v, exec (.decode a) u = .next v ∧ v.status.err = false ∧ v.outLen = s.inLen ∧ v.lzCount = t.lzCount ∧
      v.output s.inLen.toNat = s.input s.inLen.toNat

/-! ### The sequencer (40_sequencer.md) -/

/-- R91, R92: with a command in flight and RST low, the ENGINE's turn, listed or by default (log 6), is the meaning of
the command PEND decodes to, or the illegal completion. -/
def Obligations.StepRunsTheCommandInFlight : Prop :=
  ∀ s : State, s.seq = .busy → s.rst = false → (s.sched = [] ∨ s.sched.head? = some .engine) →
    (∀ i, decodeWord s.pend = .instr i → step s = exec i s.popTurn) ∧
    (∀ r, decodeWord s.pend = .illegal r → step s = .next (finish (.fail .illegalCmd false 0 0) s.popTurn))

/-- A placed command is run by the very next step (log 13). -/
def Obligations.PlacedCommandRunsNext : Prop :=
  ∀ (s : State) (i : Instr),
    step (s.withFetchWord 32 (encode i).toNat) = exec i { s.accept (encode i) with rst := false }

/-- R88: acceptance, and all it leaves unchanged. -/
def Obligations.AcceptanceEffect : Prop :=
  ∀ (w : Word) (s : State), s.accept w =
    { s with
      seq := .busy, pend := w, cmdLast := w
      status := { busy := true, done := false, err := false, ovr := s.status.ovr, errcode := 0 }
      outLen := 0, lzCount := 0, errByte := 0, errIndex := 0 }

/-- R28, R86, R87: a CMD write while IDLE is accepted, one while BUSY is dropped with OVR, both with response OK;
nothing else but reset changes CMD_LAST, and a CMD read returns it. -/
def Obligations.CmdWritesAndCmdLast : Prop :=
  (∀ (s : State) (w : Word) (rest : List HostOp), s.rst = false → s.seq = .idle →
    hostWrite 0x00C .word w rest s = { s.accept w with resp := some .written, script := rest }) ∧
  (∀ (s : State) (w : Word) (rest : List HostOp), s.rst = false → s.seq = .busy →
    hostWrite 0x00C .word w rest s =
      { s with status := { s.status with ovr := true }, resp := some .written, script := rest }) ∧
  (∀ s t : State, step s = .next t → t.cmdLast ≠ s.cmdLast →
    (s.seq = .idle ∧ ∃ w, s.hostWrites 0x00C .word w ∧ t.cmdLast = w ∧ t.pend = w ∧ t.seq = .busy) ∨ t.AtReset) ∧
  (∀ s : State, readData s 0x00C .word = s.cmdLast) ∧ State.reset.cmdLast = 0

/-- R85: SEQ leaves IDLE only by accepting a CMD write, and leaves BUSY only by the completion step or by reset. -/
def Obligations.SeqMovesOnlyByAcceptCompletionReset : Prop :=
  State.reset.seq = .idle ∧
  ∀ s t : State, step s = .next t →
    (s.seq = .idle → t.seq = .busy →
      ∃ w, s.hostWrites 0x00C .word w ∧ t.pend = w ∧ t.cmdLast = w ∧ t.status = s.status.accepted) ∧
    (s.seq = .busy → t.seq = .idle → completion s.popTurn = .next t ∨ (t.AtReset ∧ t.rst = true))

/-- R89: while BUSY, writes to CMD, to IN_LEN and to IN_BUF below IN_CAP are dropped and set OVR, CTRL and STATUS
writes are taken, writes to every other offset are ignored without OVR, all with response OK, and reads are served. -/
def Obligations.WritesWhileBusy : Prop :=
  ∀ (s : State) (off : Nat) (n : Size) (v : Word), s.seq = .busy → s.cfg.wf = true → busError s off n = false →
    ((off = 0x00C ∨ off = 0x010 ∨ (0x10000 ≤ off ∧ off < 0x10000 + s.cfg.inCap)) →
      busWrite off n v s = { s with status := { s.status with ovr := true } }) ∧
    (off = 0x004 → busWrite off n v s = { s with ctrl := { ie := v.getLsbD 0 } }) ∧
    (off = 0x008 → busWrite off n v s =
      { s with status := { s.status with
        done := if v.getLsbD 1 then false else s.status.done
        ovr := if v.getLsbD 3 then false else s.status.ovr } }) ∧
    (off ≠ 0x004 → off ≠ 0x008 → off ≠ 0x00C → off ≠ 0x010 →
      ¬ (0x10000 ≤ off ∧ off < 0x10000 + s.cfg.inCap) → busWrite off n v s = s) ∧
    (∀ rest, hostWrite off n v rest s = { busWrite off n v s with resp := some .written, script := rest }) ∧
    (∀ x rest, (hostRead off n x rest s).resp = some (.data (readData s off n)))

/-- 10_state.md R26: a dropped write sets OVR; over every step nothing else does, and only a STATUS write with bit 3 set
or reset clears it; acceptance and completion leave it. -/
def Obligations.OvrSetOnlyByADroppedWrite : Prop :=
  (∀ (s : State) (off : Nat) (n : Size) (v : Word) (rest : List HostOp), s.seq = .busy → s.cfg.wf = true →
    busError s off n = false → (off = 0x00C ∨ off = 0x010 ∨ (0x10000 ≤ off ∧ off < 0x10000 + s.cfg.inCap)) →
    (hostWrite off n v rest s).status.ovr = true) ∧
  (∀ s t : State, step s = .next t →
    (s.status.ovr = false → t.status.ovr = true →
      s.seq = .busy ∧ ∃ off n w, s.hostWrites off n w ∧
        (off = 0x00C ∨ off = 0x010 ∨ (0x10000 ≤ off ∧ off < 0x10000 + s.cfg.inCap))) ∧
    (s.status.ovr = true → t.status.ovr = false →
      (∃ w, s.hostWrites 0x008 .word w ∧ w.getLsbD 3 = true) ∨ t.AtReset)) ∧
  (∀ (s : State) (w : Word), (s.accept w).status.ovr = s.status.ovr) ∧
  (∀ s t : State, completion s = .next t → t.status.ovr = s.status.ovr)

/-- 10_state.md R24: every completion sets DONE; over every step nothing else does; acceptance, a STATUS write with
bit 1 set and reset clear it, and nothing else does. -/
def Obligations.DoneSetOnlyByCompletion : Prop :=
  (∀ s t : State, completion s = .next t → t.status.done = true) ∧
  (∀ (s : State) (w : Word), (s.accept w).status.done = false) ∧
  (∀ (s : State) (n : Size) (v : Word), v.getLsbD 1 = true → (busWrite 0x008 n v s).status.done = false) ∧
  ∀ s t : State, step s = .next t →
    (s.status.done = false → t.status.done = true → s.seq = .busy ∧ completion s.popTurn = .next t) ∧
    (s.status.done = true → t.status.done = false →
      (s.seq = .idle ∧ ∃ w, s.hostWrites 0x00C .word w) ∨
      (∃ w, s.hostWrites 0x008 .word w ∧ w.getLsbD 1 = true) ∨ t.AtReset) ∧
    (t.AtReset → t.status.done = false)

/-- 20_memory.md R64 and 10_state.md R29, R38: IN_LEN and IN_BUF change only by a HOST write while IDLE or by reset, so
a command in flight keeps its inputs. -/
def Obligations.InputsChangeOnlyWhileIdle : Prop :=
  ∀ s t : State, step s = .next t → t.inLen ≠ s.inLen ∨ t.inBuf ≠ s.inBuf ∨ t.inBatch ≠ s.inBatch →
    (s.seq = .idle ∧ t.seq = .idle ∧ t.inBatch = s.inBatch ∧
      ((∃ w, s.hostWrites 0x010 .word w ∧ t.inLen = w ∧ t.inBuf = s.inBuf) ∨
       (∃ off n w, s.hostWrites off n w ∧ 0x10000 ≤ off ∧ off < 0x10000 + s.cfg.inCap ∧ t.inLen = s.inLen))) ∨
    (t.AtReset ∧ t.rst = true)

/-! ### The bus (20_memory.md) -/

/-- R51: byte off + j of a transaction is data bits [8j+7 : 8j], and a read has no other bits. -/
def Obligations.ByteLanesAreLittleEndian : Prop :=
  ∀ (s : State) (off : Nat) (n : Size),
    (∀ j, j < sizeBytes n → (readData s off n).extractLsb' (8 * j) 8 = byteAt s (off + j)) ∧
    (readData s off n).toNat < 2 ^ (8 * sizeBytes n) ∧
    (∀ (v : Word) (j : Nat), j < sizeBytes n → (writeLanes n v)[j]? = some (v.extractLsb' (8 * j) 8))

/-- R53: the transactions that end with ERROR, exactly, and that they change nothing in the block; the response of every
write, of every named read and of every read of a POLL, which is done when its condition holds. -/
def Obligations.BusErrorExactly : Prop :=
  ∀ (s : State) (off : Nat) (n : Size),
    (busError s off n = true ↔ off % sizeBytes n ≠ 0 ∨ (off < 0x100 ∧ sizeBytes n ≠ 4) ∨ s.rst = true) ∧
    (busError s off n = true →
      (∀ v rest, s.SameBlock (hostWrite off n v rest s) ∧ (hostWrite off n v rest s).resp = some .error) ∧
      (∀ x rest, s.SameBlock (hostRead off n x rest s) ∧ (hostRead off n x rest s).resp = some .error ∧
        (hostRead off n x rest s).vals.lookup x = none)) ∧
    (busError s off n = false →
      (∀ v rest, (hostWrite off n v rest s).resp = some .written) ∧
      (∀ x rest, (hostRead off n x rest s).resp = some (.data (readData s off n)) ∧
        (hostRead off n x rest s).vals.lookup x = some (readData s off n))) ∧
    (∀ (m v : Word) (again rest : List HostOp), s.SameBlock (hostPoll off m v again rest s) ∧
      (busError s off .word = true → (hostPoll off m v again rest s).resp = some .error ∧
        (hostPoll off m v again rest s).vals = s.vals) ∧
      (busError s off .word = false →
        (hostPoll off m v again rest s).resp = some (.data (readData s off .word)) ∧
        (hostPoll off m v again rest s).script = if readData s off .word &&& m = v then rest else again))

/-- 10_state.md R19 to R22, R28 to R34: what a 32-bit read of each register returns; the bits of STATUS and CTRL. -/
def Obligations.RegisterReads : Prop :=
  ∀ s : State,
    readData s 0x000 .word = 0x42353801#32 ∧
    readData s 0x004 .word = (if s.ctrl.ie then 1#32 else 0#32) ∧
    readData s 0x008 .word =
      ((if s.status.busy then 1#32 else 0#32) ||| (if s.status.done then 2#32 else 0#32) |||
        (if s.status.err then 4#32 else 0#32) ||| (if s.status.ovr then 8#32 else 0#32) |||
        (s.status.errcode.zeroExtend 32 <<< 8)) ∧
    readData s 0x00C .word = s.cmdLast ∧ readData s 0x010 .word = s.inLen ∧ readData s 0x014 .word = s.outLen ∧
    readData s 0x018 .word = s.lzCount ∧ readData s 0x01C .word = s.errByte ∧ readData s 0x020 .word = s.errIndex ∧
    readData s 0x024 .word = BitVec.ofNat 32 s.cfg.inCap ∧ readData s 0x028 .word = BitVec.ofNat 32 s.cfg.outCap

/-- 10_state.md R21, R22, R29: the CTRL and STATUS writes, taken at any time, and the IN_LEN write while IDLE, with all
they leave unchanged. -/
def Obligations.RegisterWrites : Prop :=
  ∀ (s : State) (v : Word),
    busWrite 0x004 .word v s = { s with ctrl := { ie := v.getLsbD 0 } } ∧
    busWrite 0x008 .word v s =
      { s with status := { s.status with
        done := if v.getLsbD 1 then false else s.status.done
        ovr := if v.getLsbD 3 then false else s.status.ovr } } ∧
    (s.seq = .idle → busWrite 0x010 .word v s = { s with inLen := v })

/-- R44, R45, and 10_state.md R37, R39: reserved offsets read 0; writes there, to read-only registers, to the alphabet
windows and to OUT_BUF do nothing. -/
def Obligations.ReservedAndReadOnlyOffsets : Prop :=
  ∀ (s : State) (off : Nat), s.cfg.wf = true →
    ((0x2C ≤ off ∧ off < 0x100) ∨ (0x180 ≤ off ∧ off < 0x10000) ∨ (0x10000 + s.cfg.inCap ≤ off ∧ off < 0x20000) ∨
      0x20000 + s.cfg.outCap ≤ off ∨ (0x13A ≤ off ∧ off < 0x140) ∨ (0x17A ≤ off ∧ off < 0x180) →
      byteAt s off = 0#8) ∧
    (∀ (n : Size) (v : Word), busError s off n = false →
      off = 0x000 ∨ (0x014 ≤ off ∧ off < 0x10000) ∨ 0x10000 + s.cfg.inCap ≤ off → busWrite off n v s = s)

/-- R37: the alphabet windows. -/
def Obligations.AlphabetWindowReads : Prop :=
  ∀ (s : State) (d : Nat), d < 58 →
    byteAt s (0x100 + d) = charOf s.cfg.alpha0 d ∧ byteAt s (0x140 + d) = charOf s.cfg.alpha1 d

/-- R56, R60: an IDLE write to IN_BUF changes only the bytes it names, to its lanes, and nothing else of the block. -/
def Obligations.InBufWriteChangesOnlyItsBytes : Prop :=
  ∀ (s t : State) (off : Nat) (n : Size) (v : Word), s.seq = .idle → s.cfg.wf = true →
    busError s off n = false → 0x10000 ≤ off → off < 0x10000 + s.cfg.inCap → t = busWrite off n v s →
    (∀ j, j < sizeBytes n → byteAt t (off + j) = v.extractLsb' (8 * j) 8) ∧
    (∀ o, ¬ (off ≤ o ∧ o < off + sizeBytes n) → byteAt t o = byteAt s o) ∧
    (∀ (o : Nat) (n' : Size) (j : Nat), j < sizeBytes n' → off ≤ o + j → o + j < off + sizeBytes n →
      (readData t o n').extractLsb' (8 * j) 8 = v.extractLsb' (8 * (o + j - off)) 8) ∧
    s.SameBlock { t with inBuf := s.inBuf }

/-- R58: a read changes nothing in the block, and reading any offset after it gives what it gave before, but for
OUT_BUF while BUSY, where each read is a draw of a batch of its own (40_sequencer.md R95). The batches and their counter
are the model's form of a draw (log 4). -/
def Obligations.ReadsHaveNoSideEffect : Prop :=
  ∀ (s : State) (off : Nat) (n : Size) (x : Nat) (m v : Word) (rest again : List HostOp),
    (s.SameBlock (hostRead off n x rest s) ∧ s.SameBlock (hostPoll off m v again rest s)) ∧
    (∀ o, outWindow s.cfg o = false ∨ s.status.busy = false →
      byteAt (hostRead off n x rest s) o = byteAt s o ∧ byteAt (hostPoll off m v again rest s) o = byteAt s o) ∧
    (s.cfg.wf = true → s.status.busy = true → outWindow s.cfg off = true → busError s off n = false →
      byteAt s off = Config.freeByte s.draws (off - 0x20000) ∧ (hostRead off n x rest s).draws = s.draws + 1)

/-- R49: the HOST stops at a system address the block does not decode, and every address of the window reaches its
offset (log 9: the stop is the model's). A HOST whose transaction has faulted issues nothing (log 8). -/
def Obligations.WindowDecode : Prop :=
  ∀ s : State,
    (∀ off, off < 0x30000 → blockOffset s.cfg (sysAddr s.cfg off) = some off) ∧
    (∀ op rest, s.hostHalted = false → s.script = op :: rest → op.addr < s.cfg.blockBase ∨ s.cfg.blockBase + 0x30000 ≤ op.addr →
      hostStep s = .fault .outsideWindow)

/-! ### Interrupt and reset -/

/-- 10_state.md R42: IRQ is IE AND DONE; it rises in the completion step and falls by acceptance, W1C, IE <- 0, reset. -/
def Obligations.IrqFollowsDoneAndEnable : Prop :=
  ∀ s : State,
    (s.irq = true ↔ s.ctrl.ie = true ∧ s.status.done = true) ∧
    (∀ t, completion s = .next t → t.irq = s.ctrl.ie) ∧
    (∀ w, (s.accept w).irq = false) ∧
    (∀ v, v.getLsbD 1 = true → (s.writeStatus v).irq = false) ∧
    (∀ v, v.getLsbD 0 = false → (s.writeCtrl v).irq = false) ∧
    (s.AtReset → s.irq = false)

/-- 10_state.md R46: the registers after reset, for every configuration; no byte of a buffer has a value but its draw
(log 4, 5). That RST is released in it is the model's choice (log 11). -/
def Obligations.ResetValues : Prop :=
  (∀ c : Config, (State.resetWith c).AtReset ∧ (State.resetWith c).irq = false ∧ (State.resetWith c).rst = false ∧
    (∀ i, (State.resetWith c).inBuf.get i = none ∧ (State.resetWith c).outBuf.get i = none)) ∧
  State.reset.AtReset ∧ State.reset.inBuf = [] ∧ State.reset.outBuf = []

/-- 70_reset_and_hazards.md R154: asserting RST, at any point, puts every register, SEQ and PEND to its reset value;
no byte of either buffer is listed any more, and both are read from new batches of draws, which no earlier event used:
neither is below the counter of the batches used so far. The configuration and the HOST (its script, its named results and
its latest response) are unchanged. The batches are the model's form of a draw (log 4), and the
turn that asserts RST is the model's (log 11). -/
def Obligations.ResetStep : Prop :=
  ∀ s t : State, s.rst = false → s.sched.head? = some .rstAssert → step s = .next t →
    t.AtReset ∧ t.rst = true ∧ t.inBuf = [] ∧ t.outBuf = [] ∧ t.irq = false ∧
    t.cfg = s.cfg ∧ t.script = s.script ∧ t.vals = s.vals ∧ t.resp = s.resp ∧
    s.draws ≤ t.inBatch ∧ s.draws ≤ t.outBatch ∧ t.inBatch < t.draws ∧ t.outBatch < t.draws ∧
    t.inBatch ≠ t.outBatch ∧
    (s.BufInv → ∀ b ∈ [s.inBatch, s.outBatch], t.inBatch ≠ b ∧ t.outBatch ≠ b)

/-- 70_reset_and_hazards.md R153: while RST is asserted the block is held at its reset values, performs no completion
step, answers every transaction with ERROR and holds IRQ at 0. That a buffer byte keeps its draw meanwhile is the model's
choice (log 11). -/
def Obligations.HeldWhileResetAsserted : Prop :=
  ∀ s : State, s.rst = true → s.AtReset →
    s.irq = false ∧ engineEnabled s = false ∧ (∀ off n, busError s off n = true) ∧
    (∀ t, step s = .next t → t.AtReset ∧ t.irq = false ∧
      (∀ i, t.inByte i = s.inByte i ∧ t.outByte i = s.outByte i))

/-! ### Invariants -/

/-- The invariant holds after reset, in every configuration the spec admits. -/
def Obligations.ResetMeetsTheInvariant : Prop :=
  (∀ c : Config, c.wf = true → (State.resetWith c).Inv) ∧ State.reset.Inv

/-- From every state that meets it, every step that goes on keeps the invariant: R47, R23, R27, R32, R40, R153, and
the canonical form of the buffers. -/
def Obligations.EveryStepKeepsTheInvariant : Prop :=
  ∀ s t : State, s.Inv → step s = .next t → t.Inv

/-- R47: in every state reached from reset, by any script and any schedule, (a) to (e) hold, and BUSY says SEQ = BUSY. -/
def Obligations.ReachableStatesMeetR47 : Prop :=
  ∀ (c : Config) (script : List HostOp) (sched : List Turn) (k : Nat) (t : State), c.wf = true →
    Sys2Proof.core.run k { State.resetWith c with script := script, sched := sched } = .next t →
    t.R47 ∧ (t.status.busy = true ↔ t.seq = .busy)

/-! ### Host scripts (30_encoding.md) -/

/-- R82: `RUN c` on a ready block is over after three steps, with DONE set, the block IDLE and the word in CMD_LAST.
That it takes three rests on the model's default turn (log 6). -/
def Obligations.RunCommandEnds : Prop :=
  ∀ (s : State) (cmd : CmdText) (rest : List HostOp), s.Inv → s.Ready →
    s.script = runCmd s.cfg cmd ++ rest →
    ∃ t, Sys2Proof.core.run 3 s = .next t ∧ t.script = rest ∧ t.Ready ∧ t.status.done = true ∧
      t.cmdLast = cmd.toWord ∧ t.inLen = s.inLen ∧ (∀ i, t.inByte i = s.inByte i)

/-- R82: `PUT p` on a ready block leaves p in IN_BUF and its length in IN_LEN, and has written every byte of it. The
number of steps rests on the model's default turn (log 6). -/
def Obligations.PutWritesTheInput : Prop :=
  ∀ (s : State) (p : List Byte) (rest : List HostOp), s.Inv → s.Ready →
    4 * ((p.length + 3) / 4) ≤ s.cfg.inCap → s.script = put s.cfg p ++ rest →
    ∃ t, Sys2Proof.core.run ((p.length + 3) / 4 + 1) s = .next t ∧ t.script = rest ∧ t.Ready ∧
      t.inLen.toNat = p.length ∧ t.input p.length = p ∧ t.inputWritten p.length = true

/-! ### Draws (00_scope.md R13, in the model's form: log 4) and the end of a run (70_reset_and_hazards.md R170) -/

/-- 40_sequencer.md R92, 10_state.md R39: the OUT_BUF bytes an ENCODE or a DECODE leaves unspecified (from OUT_LEN on
after a success, all of them after a failure) keep nothing: each reads as a draw of the batch that was unused before it. That
form of a draw is the model's (log 4). -/
def Obligations.UnspecifiedOutputIsRedrawn : Prop :=
  ∀ (s t : State) (i : Instr), s.cfg.wf = true → i ≠ .nop → exec i s = .next t →
    t.outBatch = s.draws ∧ t.draws = s.draws + 1 ∧ t.inBatch = s.inBatch ∧
    (t.status.err = true → t.outBuf = []) ∧
    (∀ j, t.status.err = true ∨ t.outLen.toNat ≤ j →
      t.outBuf.get j = none ∧ t.outByte j = Config.freeByte s.draws j ∧
      (j < s.cfg.outCap → byteAt t (0x20000 + j) = Config.freeByte s.draws j))

/-- 00_scope.md R13, 40_sequencer.md R95: no batch of draws serves two events (log 4). Over every step the counter of
batches does not fall; a buffer keeps its batch or takes one not below the counter, IN_BUF by reset only and OUT_BUF by
reset or a completion; and a read of OUT_BUF while BUSY uses its batch up. -/
def Obligations.EachDrawHasItsOwnBatch : Prop :=
  (∀ s t : State, step s = .next t →
    s.draws ≤ t.draws ∧
    (t.inBatch = s.inBatch ∨ (s.draws ≤ t.inBatch ∧ t.inBatch < t.draws ∧ t.outBatch ≠ t.inBatch ∧ t.AtReset)) ∧
    (t.outBatch = s.outBatch ∨
      (s.draws ≤ t.outBatch ∧ t.outBatch < t.draws ∧ (t.AtReset ∨ completion s.popTurn = .next t)))) ∧
  (∀ (s : State) (off : Nat) (n : Size) (x : Nat) (m v : Word) (again rest : List HostOp),
    s.status.busy = true → outWindow s.cfg off = true →
    (busError s off n = false → (hostRead off n x rest s).draws = s.draws + 1) ∧
    (busError s off .word = false → (hostPoll off m v again rest s).draws = s.draws + 1))

/-- 70_reset_and_hazards.md R170: a run ends when its script is used up and SEQ = IDLE, and an operation leaves the
script only by completing: a write or read by its OK response (or an ERROR the HOST ignores), a POLL by a read that shows
its condition. A HOST whose transaction faulted keeps the operation, issues nothing more, and never ends its run. What
an ERROR response leads to is the model's reading of BUS_ERROR_ACTION (log 8). -/
def Obligations.RunEndsOnlyWhenEveryOperationCompleted : Prop :=
  (∀ s : State, runEnded s = true ↔ s.script = [] ∧ s.seq = .idle) ∧
  (∀ s t : State, step s = .next t → t.script = s.script ∨
    ∃ op rest, s.script = op :: rest ∧ t.script = rest ∧ s.hostHalted = false ∧ completesWith op s.cfg t.resp) ∧
  (∀ s t : State, s.hostHalted = false → step s = .next t → t.resp = some .error →
    s.cfg.busErrorAction = .fault → t.hostHalted = true ∧ t.script = s.script ∧ s.script ≠ []) ∧
  (∀ (s t : State) (k : Nat), s.hostHalted = true → s.script ≠ [] → Sys2Proof.core.run k s = .next t →
    t.hostHalted = true ∧ t.script = s.script ∧ runEnded t = false)
end

