-- ==== Sys2Proof/Laws/Decode.lean ====
section
/-! SUPPORT. The fields of a command word as numbers (spec 30_encoding.md R73). -/

namespace Sys2Proof

theorem opField_toNat (w : Word) : (opField w).toNat = w.toNat % 16 := by
  simp [opField, BitVec.extractLsb'_toNat]

theorem aselField_toNat (w : Word) : (aselField w).toNat = w.toNat / 16 % 16 := by
  simp [aselField, BitVec.extractLsb'_toNat, Nat.shiftRight_eq_div_pow]

theorem rsvdField_toNat (w : Word) : (rsvdField w).toNat = w.toNat / 256 := by
  have := w.isLt
  simp [rsvdField, BitVec.extractLsb'_toNat, Nat.shiftRight_eq_div_pow]
  omega

/-- A word is its three fields. -/
theorem word_of_fields (w : Word) :
    w.toNat = (rsvdField w).toNat * 256 + (aselField w).toNat * 16 + (opField w).toNat := by
  rw [opField_toNat, aselField_toNat, rsvdField_toNat]
  omega

/-- The encoder's word has RSVD = 0 and the command's ASEL and OP. -/
theorem encode_toNat (i : Instr) : (encode i).toNat = (aselFieldOf i).toNat * 16 + (opBits i).toNat := by
  rcases i with _ | a | a
  · rfl
  · cases a <;> rfl
  · cases a <;> rfl

end Sys2Proof
end

