-- ==== Sys2Proof/Laws/Memory.lean ====
section
/-! SUPPORT. The laws of the buffers' storage: a read after a write, and that every operation keeps the canonical
form. -/

namespace Sys2Proof.Machine

@[simp] theorem Memory.get_nil (i : Nat) : Memory.get [] i = none := rfl

/-- A read after a write to the same index gives the byte written. -/
@[simp] theorem Memory.get_set_same (m : Memory) (i : Nat) (v : Byte) : (m.set i v).get i = some v := by
  induction m with
  | nil => simp [Memory.set, Memory.get]
  | cons c m ih =>
    obtain ⟨j, b⟩ := c
    simp only [Memory.set]
    split
    · simp [Memory.get]
    · split
      · simp [Memory.get]
      · rename_i h
        simp [Memory.get, h, ih]

/-- A write leaves every other index alone. -/
theorem Memory.get_set_other (m : Memory) (i j : Nat) (v : Byte) (h : i ≠ j) : (m.set j v).get i = m.get i := by
  induction m with
  | nil => simp [Memory.set, Memory.get, h]
  | cons c m ih =>
    obtain ⟨k, b⟩ := c
    simp only [Memory.set]
    split
    · simp [Memory.get, h]
    · split
      · rename_i hjk
        simp [Memory.get, h, ← hjk]
      · simp [Memory.get, ih]

/-- The bytes a write of consecutive bytes leaves: its own in its range, the old ones outside. -/
theorem Memory.get_setBytes (bs : List Byte) (m : Memory) (i k : Nat) :
    (m.setBytes i bs).get k = if i ≤ k ∧ k < i + bs.length then bs[k - i]? else m.get k := by
  induction bs generalizing m i with
  | nil => simp [Memory.setBytes]
  | cons v vs ih =>
    simp only [Memory.setBytes, ih, List.length_cons]
    by_cases hk : k = i
    · subst hk
      simp
    · by_cases hr : i + 1 ≤ k ∧ k < i + 1 + vs.length
      · have h1 : i ≤ k ∧ k < i + (vs.length + 1) := by omega
        have h2 : k - i = (k - (i + 1)) + 1 := by omega
        simp [hr, h1, h2]
      · have h1 : ¬ (i ≤ k ∧ k < i + (vs.length + 1)) := by omega
        rw [if_neg hr, if_neg h1, Memory.get_set_other m k i v hk]

/-- The bytes of a freshly written memory. -/
theorem Memory.get_ofBytes (bs : List Byte) (i k : Nat) :
    (Memory.ofBytes i bs).get k = if i ≤ k then bs[k - i]? else none := by
  induction bs generalizing i with
  | nil => simp [Memory.ofBytes]
  | cons v vs ih =>
    simp only [Memory.ofBytes, Memory.get]
    by_cases hk : k = i
    · simp [hk]
    · by_cases h1 : i + 1 ≤ k
      · have h2 : k - i = (k - (i + 1)) + 1 := by omega
        have h3 : i ≤ k := by omega
        simp [hk, ih, h1, h2, h3]
      · have h3 : ¬ i ≤ k := by omega
        simp [hk, ih, h1, h3]

theorem Memory.rising_cons (i : Nat) (b : Byte) (m : Memory) :
    Memory.rising ((i, b) :: m) = true ↔ (∀ c ∈ m.head?, i < c.1) ∧ Memory.rising m = true := by
  cases m with
  | nil => simp [Memory.rising]
  | cons c m => simp [Memory.rising]

/-- The first index after a write: the one written, or the first there was. -/
theorem Memory.head_set (m : Memory) (i : Nat) (v : Byte) :
    ∀ c ∈ (m.set i v).head?, c.1 = i ∨ ∃ d ∈ m.head?, c.1 = d.1 := by
  cases m with
  | nil => simp [Memory.set]
  | cons d m =>
    obtain ⟨j, b⟩ := d
    simp only [Memory.set]
    split
    · simp
    · split <;> simp

theorem Memory.rising_set (m : Memory) (i : Nat) (v : Byte) (h : m.rising = true) : (m.set i v).rising = true := by
  induction m with
  | nil => simp [Memory.set, Memory.rising]
  | cons c m ih =>
    obtain ⟨j, b⟩ := c
    obtain ⟨h1, h2⟩ := (Memory.rising_cons j b m).mp h
    simp only [Memory.set]
    split
    · rename_i hij
      exact (Memory.rising_cons _ _ _).mpr ⟨by simp [hij], h⟩
    · split
      · rename_i hij
        exact (Memory.rising_cons _ _ _).mpr ⟨by simpa [hij] using h1, h2⟩
      · refine (Memory.rising_cons _ _ _).mpr ⟨fun c hc => ?_, ih h2⟩
        rcases Memory.head_set m i v c hc with rfl | ⟨d, hd, hcd⟩
        · omega
        · have := h1 d hd
          omega

theorem Memory.mem_set (m : Memory) (i : Nat) (v : Byte) : ∀ c ∈ m.set i v, c.1 = i ∨ c ∈ m := by
  induction m with
  | nil => simp [Memory.set]
  | cons d m ih =>
    obtain ⟨j, b⟩ := d
    intro c hc
    simp only [Memory.set] at hc
    split at hc
    · simp only [List.mem_cons] at hc ⊢
      aesop
    · split at hc
      · simp only [List.mem_cons] at hc ⊢
        aesop
      · simp only [List.mem_cons] at hc ⊢
        rcases hc with rfl | hc
        · simp
        · rcases ih c hc with h | h <;> simp [h]

theorem Memory.wf_iff (cap : Nat) (m : Memory) :
    m.wf cap = true ↔ m.rising = true ∧ ∀ c ∈ m, c.1 < cap := by
  simp [Memory.wf]

@[simp] theorem Memory.wf_nil (cap : Nat) : Memory.wf cap [] = true := rfl

/-- A write below the capacity keeps the canonical form. -/
theorem Memory.wf_set (cap : Nat) (m : Memory) (i : Nat) (v : Byte) (h : m.wf cap = true) (hi : i < cap) :
    (m.set i v).wf cap = true := by
  rw [Memory.wf_iff] at h ⊢
  refine ⟨Memory.rising_set m i v h.1, fun c hc => ?_⟩
  rcases Memory.mem_set m i v c hc with hci | hcm
  · omega
  · exact h.2 c hcm

/-- A write of consecutive bytes below the capacity keeps the canonical form. -/
theorem Memory.wf_setBytes (cap : Nat) (bs : List Byte) (m : Memory) (i : Nat) (h : m.wf cap = true)
    (hi : i + bs.length ≤ cap) : (m.setBytes i bs).wf cap = true := by
  induction bs generalizing m i with
  | nil => exact h
  | cons v vs ih =>
    simp only [List.length_cons] at hi
    exact ih (m.set i v) (i + 1) (Memory.wf_set cap m i v h (by omega)) (by omega)

theorem Memory.rising_ofBytes (bs : List Byte) (i : Nat) : (Memory.ofBytes i bs).rising = true := by
  induction bs generalizing i with
  | nil => rfl
  | cons v vs ih =>
    refine (Memory.rising_cons _ _ _).mpr ⟨?_, ih (i + 1)⟩
    cases vs <;> simp [Memory.ofBytes]

theorem Memory.mem_ofBytes (bs : List Byte) (i : Nat) : ∀ c ∈ Memory.ofBytes i bs, c.1 < i + bs.length := by
  induction bs generalizing i with
  | nil => simp [Memory.ofBytes]
  | cons v vs ih =>
    intro c hc
    simp only [Memory.ofBytes, List.mem_cons, List.length_cons] at hc ⊢
    rcases hc with rfl | hc
    · simp
    · have := ih (i + 1) c hc
      omega

/-- A freshly written memory is in canonical form if its bytes fit. -/
theorem Memory.wf_ofBytes (cap : Nat) (bs : List Byte) (h : bs.length ≤ cap) :
    (Memory.ofBytes 0 bs).wf cap = true := by
  rw [Memory.wf_iff]
  refine ⟨Memory.rising_ofBytes bs 0, fun c hc => ?_⟩
  have := Memory.mem_ofBytes bs 0 c hc
  omega

end Sys2Proof.Machine
end

