-- ==== Sys2Proof/Laws/Radix.lean ====
section
/-! SUPPORT. The conversion arithmetic against the library's digit lists, and one lemma for each of its functions. -/

namespace Sys2Proof.Machine

/-- The loop of R99 computes the library's digits once it has passes enough. -/
theorem digitLoop_eq_digits (b fuel x : Nat) (hb : 2 ≤ b) (h : x ≤ fuel) :
    digitLoop b fuel x = Nat.digits b x := by
  induction fuel generalizing x with
  | zero => simp [digitLoop, Nat.le_zero.mp h]
  | succ fuel ih =>
    simp only [digitLoop]
    split
    · simp [*]
    · rename_i hx
      have hlt : x / b < x := Nat.div_lt_self (by omega) (by omega)
      rw [ih (x / b) (Nat.le_of_lt_succ (lt_of_lt_of_le hlt h))]
      exact (Nat.digits_def' (by omega) (Nat.pos_of_ne_zero hx)).symm

theorem digits58_eq (x : Nat) : digits58 x = (Nat.digits 58 x).reverse := by
  rw [digits58, digitLoop_eq_digits 58 x x (by omega) (le_refl x)]

theorem bytes256_eq (x : Nat) : bytes256 x = (Nat.digits 256 x).reverse.map (BitVec.ofNat 8) := by
  rw [bytes256, digitLoop_eq_digits 256 x x (by omega) (le_refl x)]

@[simp] theorem digits58_zero : digits58 0 = [] := rfl

@[simp] theorem bytes256_zero : bytes256 0 = [] := rfl

theorem digits58_lt (x : Nat) : ∀ d ∈ digits58 x, d < 58 := by
  intro d hd
  rw [digits58_eq, List.mem_reverse] at hd
  exact Nat.digits_lt_base (by omega) hd

@[simp] theorem val256_nil : val256 [] = 0 := rfl

@[simp] theorem val256_cons (b : Byte) (p : List Byte) :
    val256 (b :: p) = b.toNat * 256 ^ p.length + val256 p := rfl

theorem val256_append (p q : List Byte) : val256 (p ++ q) = val256 p * 256 ^ q.length + val256 q := by
  induction p with
  | nil => simp
  | cons b p ih => simp [ih, pow_add]; ring

theorem val256_lt (p : List Byte) : val256 p < 256 ^ p.length := by
  induction p with
  | nil => simp
  | cons b p ih =>
    have hb : b.toNat + 1 ≤ 256 := b.isLt
    have hm := Nat.mul_le_mul_right (256 ^ p.length) hb
    simp only [val256_cons, List.length_cons, pow_succ]
    linarith [hm, ih]

/-- Leading zero bytes contribute nothing (R98: "val256(p) = val256(p[k : n])"). -/
@[simp] theorem val256_replicate_zero (k : Nat) (p : List Byte) :
    val256 (List.replicate k 0#8 ++ p) = val256 p := by
  induction k with
  | zero => simp
  | succ k ih => simp [List.replicate_succ, ih]

/-- A run counts a prefix of its byte. -/
theorem leadingRun_split (c : Byte) (p : List Byte) :
    p = List.replicate (leadingRun c p) c ++ p.drop (leadingRun c p) := by
  induction p with
  | nil => simp [leadingRun]
  | cons b p ih =>
    by_cases h : b = c
    · subst h
      simpa [leadingRun, List.takeWhile_cons, List.replicate_succ] using ih
    · simp [leadingRun, h]

/-- A run stops at another byte. -/
theorem leadingRun_stops (c : Byte) (p : List Byte) : (p.drop (leadingRun c p)).head? ≠ some c := by
  induction p with
  | nil => simp [leadingRun]
  | cons b p ih =>
    by_cases h : b = c
    · subst h
      simpa [leadingRun, List.takeWhile_cons] using ih
    · simp [leadingRun, h]

theorem leadingRun_le (c : Byte) (p : List Byte) : leadingRun c p ≤ p.length := by
  have h := congrArg List.length (leadingRun_split c p)
  simp only [List.length_append, List.length_replicate, List.length_drop] at h
  omega

/-- The run of a prefix of its byte before another byte. -/
theorem leadingRun_replicate_append (c : Byte) (k : Nat) (q : List Byte) (h : q.head? ≠ some c) :
    leadingRun c (List.replicate k c ++ q) = k := by
  induction k with
  | zero =>
    cases q with
    | nil => rfl
    | cons b q =>
      have hb : ¬ b = c := by simpa using h
      simp [leadingRun, hb]
  | succ k ih => simpa [leadingRun, List.replicate_succ, List.takeWhile_cons] using ih

@[simp] theorem enc_snd (table p : List Byte) : (enc table p).2 = lzc p := rfl

theorem enc_fst (table p : List Byte) :
    (enc table p).1 = List.replicate (lzc p) (charOf table 0) ++ (digits58 (val256 p)).map (charOf table) := rfl

theorem enc_length (table p : List Byte) :
    (enc table p).1.length = lzc p + (digits58 (val256 p)).length := by
  simp [enc_fst]

/-- The digits a text of valid characters stands for. -/
def digitsOf (table t : List Byte) : List Nat := t.filterMap (inv table)

/-- One step of the scan over a valid character. -/
theorem scan_cons_valid (table : List Byte) (n : Nat) (c : Byte) (cs : List Byte) (pos x d : Nat)
    (h : inv table c = some d) : scan table n (c :: cs) pos x = scan table n cs (pos + 1) (x + d * 58 ^ pos) := by
  simp [scan, h]

/-- One step of the scan over an invalid character: it ends there. -/
theorem scan_cons_invalid (table : List Byte) (n : Nat) (c : Byte) (cs : List Byte) (pos x : Nat)
    (h : inv table c = none) : scan table n (c :: cs) pos x = .invalid c (n - 1 - pos) := by
  simp [scan, h]

/-- A scan over valid characters goes on with the sum of their digits' weights. -/
theorem scan_valid_append (table : List Byte) (n : Nat) (cs ds : List Byte) (pos x : Nat)
    (h : ∀ c ∈ cs, (inv table c).isSome = true) :
    ∃ v, scan table n (cs ++ ds) pos x = scan table n ds (pos + cs.length) (x + v) ∧
      v = 58 ^ pos * Nat.ofDigits 58 (digitsOf table cs) := by
  induction cs generalizing pos x with
  | nil => exact ⟨0, by simp, by simp [digitsOf]⟩
  | cons c cs ih =>
    obtain ⟨d, hd⟩ := Option.isSome_iff_exists.mp (h c (by simp))
    obtain ⟨v, hv, hw⟩ := ih (pos + 1) (x + d * 58 ^ pos) (fun c' hc' => h c' (by simp [hc']))
    refine ⟨d * 58 ^ pos + v, ?_, ?_⟩
    · rw [List.cons_append, scan_cons_valid _ _ _ _ _ _ d hd, hv, List.length_cons]
      congr 1 <;> omega
    · simp only [digitsOf, List.filterMap_cons, hd] at hw ⊢
      rw [hw, Nat.ofDigits_cons, pow_succ]
      ring

end Sys2Proof.Machine
end

