-- ==== Sys2Proof/Laws/State.lean ====
section
/-! SUPPORT. What every named update of the state leaves in every field: one lemma per field per update, true by
rfl, so that no proof unfolds a record update. -/

namespace Sys2Proof.Machine

/-! ### State.accept: acceptance (40_sequencer.md R88) -/

@[simp] theorem State.accept_cfg (w : Word) (s : State) : (s.accept w).cfg = s.cfg := rfl
@[simp] theorem State.accept_rst (w : Word) (s : State) : (s.accept w).rst = s.rst := rfl
@[simp] theorem State.accept_ctrl (w : Word) (s : State) : (s.accept w).ctrl = s.ctrl := rfl
@[simp] theorem State.accept_status (w : Word) (s : State) : (s.accept w).status = s.status.accepted := rfl
@[simp] theorem State.accept_cmdLast (w : Word) (s : State) : (s.accept w).cmdLast = w := rfl
@[simp] theorem State.accept_inLen (w : Word) (s : State) : (s.accept w).inLen = s.inLen := rfl
@[simp] theorem State.accept_outLen (w : Word) (s : State) : (s.accept w).outLen = 0 := rfl
@[simp] theorem State.accept_lzCount (w : Word) (s : State) : (s.accept w).lzCount = 0 := rfl
@[simp] theorem State.accept_errByte (w : Word) (s : State) : (s.accept w).errByte = 0 := rfl
@[simp] theorem State.accept_errIndex (w : Word) (s : State) : (s.accept w).errIndex = 0 := rfl
@[simp] theorem State.accept_inBuf (w : Word) (s : State) : (s.accept w).inBuf = s.inBuf := rfl
@[simp] theorem State.accept_outBuf (w : Word) (s : State) : (s.accept w).outBuf = s.outBuf := rfl
@[simp] theorem State.accept_seq (w : Word) (s : State) : (s.accept w).seq = .busy := rfl
@[simp] theorem State.accept_pend (w : Word) (s : State) : (s.accept w).pend = w := rfl
@[simp] theorem State.accept_draws (w : Word) (s : State) : (s.accept w).draws = s.draws := rfl
@[simp] theorem State.accept_inBatch (w : Word) (s : State) : (s.accept w).inBatch = s.inBatch := rfl
@[simp] theorem State.accept_outBatch (w : Word) (s : State) : (s.accept w).outBatch = s.outBatch := rfl
@[simp] theorem State.accept_resp (w : Word) (s : State) : (s.accept w).resp = s.resp := rfl
@[simp] theorem State.accept_script (w : Word) (s : State) : (s.accept w).script = s.script := rfl
@[simp] theorem State.accept_vals (w : Word) (s : State) : (s.accept w).vals = s.vals := rfl
@[simp] theorem State.accept_sched (w : Word) (s : State) : (s.accept w).sched = s.sched := rfl

/-! ### State.redrawOut: every OUT_BUF byte is drawn again (R92) -/

@[simp] theorem State.redrawOut_cfg (s : State) : s.redrawOut.cfg = s.cfg := rfl
@[simp] theorem State.redrawOut_rst (s : State) : s.redrawOut.rst = s.rst := rfl
@[simp] theorem State.redrawOut_ctrl (s : State) : s.redrawOut.ctrl = s.ctrl := rfl
@[simp] theorem State.redrawOut_status (s : State) : s.redrawOut.status = s.status := rfl
@[simp] theorem State.redrawOut_cmdLast (s : State) : s.redrawOut.cmdLast = s.cmdLast := rfl
@[simp] theorem State.redrawOut_inLen (s : State) : s.redrawOut.inLen = s.inLen := rfl
@[simp] theorem State.redrawOut_outLen (s : State) : s.redrawOut.outLen = s.outLen := rfl
@[simp] theorem State.redrawOut_lzCount (s : State) : s.redrawOut.lzCount = s.lzCount := rfl
@[simp] theorem State.redrawOut_errByte (s : State) : s.redrawOut.errByte = s.errByte := rfl
@[simp] theorem State.redrawOut_errIndex (s : State) : s.redrawOut.errIndex = s.errIndex := rfl
@[simp] theorem State.redrawOut_inBuf (s : State) : s.redrawOut.inBuf = s.inBuf := rfl
@[simp] theorem State.redrawOut_outBuf (s : State) : s.redrawOut.outBuf = [] := rfl
@[simp] theorem State.redrawOut_seq (s : State) : s.redrawOut.seq = s.seq := rfl
@[simp] theorem State.redrawOut_pend (s : State) : s.redrawOut.pend = s.pend := rfl
@[simp] theorem State.redrawOut_draws (s : State) : s.redrawOut.draws = s.draws + 1 := rfl
@[simp] theorem State.redrawOut_inBatch (s : State) : s.redrawOut.inBatch = s.inBatch := rfl
@[simp] theorem State.redrawOut_outBatch (s : State) : s.redrawOut.outBatch = s.draws := rfl
@[simp] theorem State.redrawOut_resp (s : State) : s.redrawOut.resp = s.resp := rfl
@[simp] theorem State.redrawOut_script (s : State) : s.redrawOut.script = s.script := rfl
@[simp] theorem State.redrawOut_vals (s : State) : s.redrawOut.vals = s.vals := rfl
@[simp] theorem State.redrawOut_sched (s : State) : s.redrawOut.sched = s.sched := rfl

/-! ### State.storeResult: a result is stored (R92) -/

@[simp] theorem State.storeResult_cfg (out : List Byte) (k : Nat) (s : State) : (s.storeResult out k).cfg = s.cfg := rfl
@[simp] theorem State.storeResult_rst (out : List Byte) (k : Nat) (s : State) : (s.storeResult out k).rst = s.rst := rfl
@[simp] theorem State.storeResult_ctrl (out : List Byte) (k : Nat) (s : State) : (s.storeResult out k).ctrl = s.ctrl := rfl
@[simp] theorem State.storeResult_status (out : List Byte) (k : Nat) (s : State) : (s.storeResult out k).status = s.status := rfl
@[simp] theorem State.storeResult_cmdLast (out : List Byte) (k : Nat) (s : State) : (s.storeResult out k).cmdLast = s.cmdLast := rfl
@[simp] theorem State.storeResult_inLen (out : List Byte) (k : Nat) (s : State) : (s.storeResult out k).inLen = s.inLen := rfl
@[simp] theorem State.storeResult_outLen (out : List Byte) (k : Nat) (s : State) : (s.storeResult out k).outLen = BitVec.ofNat 32 out.length := rfl
@[simp] theorem State.storeResult_lzCount (out : List Byte) (k : Nat) (s : State) : (s.storeResult out k).lzCount = BitVec.ofNat 32 k := rfl
@[simp] theorem State.storeResult_errByte (out : List Byte) (k : Nat) (s : State) : (s.storeResult out k).errByte = s.errByte := rfl
@[simp] theorem State.storeResult_errIndex (out : List Byte) (k : Nat) (s : State) : (s.storeResult out k).errIndex = s.errIndex := rfl
@[simp] theorem State.storeResult_inBuf (out : List Byte) (k : Nat) (s : State) : (s.storeResult out k).inBuf = s.inBuf := rfl
@[simp] theorem State.storeResult_outBuf (out : List Byte) (k : Nat) (s : State) : (s.storeResult out k).outBuf = Memory.ofBytes 0 out := rfl
@[simp] theorem State.storeResult_seq (out : List Byte) (k : Nat) (s : State) : (s.storeResult out k).seq = s.seq := rfl
@[simp] theorem State.storeResult_pend (out : List Byte) (k : Nat) (s : State) : (s.storeResult out k).pend = s.pend := rfl
@[simp] theorem State.storeResult_draws (out : List Byte) (k : Nat) (s : State) : (s.storeResult out k).draws = s.draws + 1 := rfl
@[simp] theorem State.storeResult_inBatch (out : List Byte) (k : Nat) (s : State) : (s.storeResult out k).inBatch = s.inBatch := rfl
@[simp] theorem State.storeResult_outBatch (out : List Byte) (k : Nat) (s : State) : (s.storeResult out k).outBatch = s.draws := rfl
@[simp] theorem State.storeResult_resp (out : List Byte) (k : Nat) (s : State) : (s.storeResult out k).resp = s.resp := rfl
@[simp] theorem State.storeResult_script (out : List Byte) (k : Nat) (s : State) : (s.storeResult out k).script = s.script := rfl
@[simp] theorem State.storeResult_vals (out : List Byte) (k : Nat) (s : State) : (s.storeResult out k).vals = s.vals := rfl
@[simp] theorem State.storeResult_sched (out : List Byte) (k : Nat) (s : State) : (s.storeResult out k).sched = s.sched := rfl

/-! ### State.recordFailure: the diagnostics of a failure (R92) -/

@[simp] theorem State.recordFailure_cfg (c : Byte) (k : Nat) (s : State) : (s.recordFailure c k).cfg = s.cfg := rfl
@[simp] theorem State.recordFailure_rst (c : Byte) (k : Nat) (s : State) : (s.recordFailure c k).rst = s.rst := rfl
@[simp] theorem State.recordFailure_ctrl (c : Byte) (k : Nat) (s : State) : (s.recordFailure c k).ctrl = s.ctrl := rfl
@[simp] theorem State.recordFailure_status (c : Byte) (k : Nat) (s : State) : (s.recordFailure c k).status = s.status := rfl
@[simp] theorem State.recordFailure_cmdLast (c : Byte) (k : Nat) (s : State) : (s.recordFailure c k).cmdLast = s.cmdLast := rfl
@[simp] theorem State.recordFailure_inLen (c : Byte) (k : Nat) (s : State) : (s.recordFailure c k).inLen = s.inLen := rfl
@[simp] theorem State.recordFailure_outLen (c : Byte) (k : Nat) (s : State) : (s.recordFailure c k).outLen = 0 := rfl
@[simp] theorem State.recordFailure_lzCount (c : Byte) (k : Nat) (s : State) : (s.recordFailure c k).lzCount = 0 := rfl
@[simp] theorem State.recordFailure_errByte (c : Byte) (k : Nat) (s : State) : (s.recordFailure c k).errByte = c.zeroExtend 32 := rfl
@[simp] theorem State.recordFailure_errIndex (c : Byte) (k : Nat) (s : State) : (s.recordFailure c k).errIndex = BitVec.ofNat 32 k := rfl
@[simp] theorem State.recordFailure_inBuf (c : Byte) (k : Nat) (s : State) : (s.recordFailure c k).inBuf = s.inBuf := rfl
@[simp] theorem State.recordFailure_outBuf (c : Byte) (k : Nat) (s : State) : (s.recordFailure c k).outBuf = s.outBuf := rfl
@[simp] theorem State.recordFailure_seq (c : Byte) (k : Nat) (s : State) : (s.recordFailure c k).seq = s.seq := rfl
@[simp] theorem State.recordFailure_pend (c : Byte) (k : Nat) (s : State) : (s.recordFailure c k).pend = s.pend := rfl
@[simp] theorem State.recordFailure_draws (c : Byte) (k : Nat) (s : State) : (s.recordFailure c k).draws = s.draws := rfl
@[simp] theorem State.recordFailure_inBatch (c : Byte) (k : Nat) (s : State) : (s.recordFailure c k).inBatch = s.inBatch := rfl
@[simp] theorem State.recordFailure_outBatch (c : Byte) (k : Nat) (s : State) : (s.recordFailure c k).outBatch = s.outBatch := rfl
@[simp] theorem State.recordFailure_resp (c : Byte) (k : Nat) (s : State) : (s.recordFailure c k).resp = s.resp := rfl
@[simp] theorem State.recordFailure_script (c : Byte) (k : Nat) (s : State) : (s.recordFailure c k).script = s.script := rfl
@[simp] theorem State.recordFailure_vals (c : Byte) (k : Nat) (s : State) : (s.recordFailure c k).vals = s.vals := rfl
@[simp] theorem State.recordFailure_sched (c : Byte) (k : Nat) (s : State) : (s.recordFailure c k).sched = s.sched := rfl

/-! ### State.complete: the end of a completion (R92) -/

@[simp] theorem State.complete_cfg (c : ErrCode) (s : State) : (s.complete c).cfg = s.cfg := rfl
@[simp] theorem State.complete_rst (c : ErrCode) (s : State) : (s.complete c).rst = s.rst := rfl
@[simp] theorem State.complete_ctrl (c : ErrCode) (s : State) : (s.complete c).ctrl = s.ctrl := rfl
@[simp] theorem State.complete_status (c : ErrCode) (s : State) : (s.complete c).status = s.status.completed c := rfl
@[simp] theorem State.complete_cmdLast (c : ErrCode) (s : State) : (s.complete c).cmdLast = s.cmdLast := rfl
@[simp] theorem State.complete_inLen (c : ErrCode) (s : State) : (s.complete c).inLen = s.inLen := rfl
@[simp] theorem State.complete_outLen (c : ErrCode) (s : State) : (s.complete c).outLen = s.outLen := rfl
@[simp] theorem State.complete_lzCount (c : ErrCode) (s : State) : (s.complete c).lzCount = s.lzCount := rfl
@[simp] theorem State.complete_errByte (c : ErrCode) (s : State) : (s.complete c).errByte = s.errByte := rfl
@[simp] theorem State.complete_errIndex (c : ErrCode) (s : State) : (s.complete c).errIndex = s.errIndex := rfl
@[simp] theorem State.complete_inBuf (c : ErrCode) (s : State) : (s.complete c).inBuf = s.inBuf := rfl
@[simp] theorem State.complete_outBuf (c : ErrCode) (s : State) : (s.complete c).outBuf = s.outBuf := rfl
@[simp] theorem State.complete_seq (c : ErrCode) (s : State) : (s.complete c).seq = .idle := rfl
@[simp] theorem State.complete_pend (c : ErrCode) (s : State) : (s.complete c).pend = s.pend := rfl
@[simp] theorem State.complete_draws (c : ErrCode) (s : State) : (s.complete c).draws = s.draws := rfl
@[simp] theorem State.complete_inBatch (c : ErrCode) (s : State) : (s.complete c).inBatch = s.inBatch := rfl
@[simp] theorem State.complete_outBatch (c : ErrCode) (s : State) : (s.complete c).outBatch = s.outBatch := rfl
@[simp] theorem State.complete_resp (c : ErrCode) (s : State) : (s.complete c).resp = s.resp := rfl
@[simp] theorem State.complete_script (c : ErrCode) (s : State) : (s.complete c).script = s.script := rfl
@[simp] theorem State.complete_vals (c : ErrCode) (s : State) : (s.complete c).vals = s.vals := rfl
@[simp] theorem State.complete_sched (c : ErrCode) (s : State) : (s.complete c).sched = s.sched := rfl

/-! ### State.dropWrite: a dropped write (R87, R89) -/

@[simp] theorem State.dropWrite_cfg (s : State) : s.dropWrite.cfg = s.cfg := rfl
@[simp] theorem State.dropWrite_rst (s : State) : s.dropWrite.rst = s.rst := rfl
@[simp] theorem State.dropWrite_ctrl (s : State) : s.dropWrite.ctrl = s.ctrl := rfl
@[simp] theorem State.dropWrite_status (s : State) : s.dropWrite.status = s.status.overrun := rfl
@[simp] theorem State.dropWrite_cmdLast (s : State) : s.dropWrite.cmdLast = s.cmdLast := rfl
@[simp] theorem State.dropWrite_inLen (s : State) : s.dropWrite.inLen = s.inLen := rfl
@[simp] theorem State.dropWrite_outLen (s : State) : s.dropWrite.outLen = s.outLen := rfl
@[simp] theorem State.dropWrite_lzCount (s : State) : s.dropWrite.lzCount = s.lzCount := rfl
@[simp] theorem State.dropWrite_errByte (s : State) : s.dropWrite.errByte = s.errByte := rfl
@[simp] theorem State.dropWrite_errIndex (s : State) : s.dropWrite.errIndex = s.errIndex := rfl
@[simp] theorem State.dropWrite_inBuf (s : State) : s.dropWrite.inBuf = s.inBuf := rfl
@[simp] theorem State.dropWrite_outBuf (s : State) : s.dropWrite.outBuf = s.outBuf := rfl
@[simp] theorem State.dropWrite_seq (s : State) : s.dropWrite.seq = s.seq := rfl
@[simp] theorem State.dropWrite_pend (s : State) : s.dropWrite.pend = s.pend := rfl
@[simp] theorem State.dropWrite_draws (s : State) : s.dropWrite.draws = s.draws := rfl
@[simp] theorem State.dropWrite_inBatch (s : State) : s.dropWrite.inBatch = s.inBatch := rfl
@[simp] theorem State.dropWrite_outBatch (s : State) : s.dropWrite.outBatch = s.outBatch := rfl
@[simp] theorem State.dropWrite_resp (s : State) : s.dropWrite.resp = s.resp := rfl
@[simp] theorem State.dropWrite_script (s : State) : s.dropWrite.script = s.script := rfl
@[simp] theorem State.dropWrite_vals (s : State) : s.dropWrite.vals = s.vals := rfl
@[simp] theorem State.dropWrite_sched (s : State) : s.dropWrite.sched = s.sched := rfl

/-! ### State.writeCtrl: a CTRL write (10_state.md R21) -/

@[simp] theorem State.writeCtrl_cfg (v : Word) (s : State) : (s.writeCtrl v).cfg = s.cfg := rfl
@[simp] theorem State.writeCtrl_rst (v : Word) (s : State) : (s.writeCtrl v).rst = s.rst := rfl
@[simp] theorem State.writeCtrl_ctrl (v : Word) (s : State) : (s.writeCtrl v).ctrl = Ctrl.ofWord v := rfl
@[simp] theorem State.writeCtrl_status (v : Word) (s : State) : (s.writeCtrl v).status = s.status := rfl
@[simp] theorem State.writeCtrl_cmdLast (v : Word) (s : State) : (s.writeCtrl v).cmdLast = s.cmdLast := rfl
@[simp] theorem State.writeCtrl_inLen (v : Word) (s : State) : (s.writeCtrl v).inLen = s.inLen := rfl
@[simp] theorem State.writeCtrl_outLen (v : Word) (s : State) : (s.writeCtrl v).outLen = s.outLen := rfl
@[simp] theorem State.writeCtrl_lzCount (v : Word) (s : State) : (s.writeCtrl v).lzCount = s.lzCount := rfl
@[simp] theorem State.writeCtrl_errByte (v : Word) (s : State) : (s.writeCtrl v).errByte = s.errByte := rfl
@[simp] theorem State.writeCtrl_errIndex (v : Word) (s : State) : (s.writeCtrl v).errIndex = s.errIndex := rfl
@[simp] theorem State.writeCtrl_inBuf (v : Word) (s : State) : (s.writeCtrl v).inBuf = s.inBuf := rfl
@[simp] theorem State.writeCtrl_outBuf (v : Word) (s : State) : (s.writeCtrl v).outBuf = s.outBuf := rfl
@[simp] theorem State.writeCtrl_seq (v : Word) (s : State) : (s.writeCtrl v).seq = s.seq := rfl
@[simp] theorem State.writeCtrl_pend (v : Word) (s : State) : (s.writeCtrl v).pend = s.pend := rfl
@[simp] theorem State.writeCtrl_draws (v : Word) (s : State) : (s.writeCtrl v).draws = s.draws := rfl
@[simp] theorem State.writeCtrl_inBatch (v : Word) (s : State) : (s.writeCtrl v).inBatch = s.inBatch := rfl
@[simp] theorem State.writeCtrl_outBatch (v : Word) (s : State) : (s.writeCtrl v).outBatch = s.outBatch := rfl
@[simp] theorem State.writeCtrl_resp (v : Word) (s : State) : (s.writeCtrl v).resp = s.resp := rfl
@[simp] theorem State.writeCtrl_script (v : Word) (s : State) : (s.writeCtrl v).script = s.script := rfl
@[simp] theorem State.writeCtrl_vals (v : Word) (s : State) : (s.writeCtrl v).vals = s.vals := rfl
@[simp] theorem State.writeCtrl_sched (v : Word) (s : State) : (s.writeCtrl v).sched = s.sched := rfl

/-! ### State.writeStatus: a STATUS write (R22) -/

@[simp] theorem State.writeStatus_cfg (v : Word) (s : State) : (s.writeStatus v).cfg = s.cfg := rfl
@[simp] theorem State.writeStatus_rst (v : Word) (s : State) : (s.writeStatus v).rst = s.rst := rfl
@[simp] theorem State.writeStatus_ctrl (v : Word) (s : State) : (s.writeStatus v).ctrl = s.ctrl := rfl
@[simp] theorem State.writeStatus_status (v : Word) (s : State) : (s.writeStatus v).status = s.status.writeOneClear v := rfl
@[simp] theorem State.writeStatus_cmdLast (v : Word) (s : State) : (s.writeStatus v).cmdLast = s.cmdLast := rfl
@[simp] theorem State.writeStatus_inLen (v : Word) (s : State) : (s.writeStatus v).inLen = s.inLen := rfl
@[simp] theorem State.writeStatus_outLen (v : Word) (s : State) : (s.writeStatus v).outLen = s.outLen := rfl
@[simp] theorem State.writeStatus_lzCount (v : Word) (s : State) : (s.writeStatus v).lzCount = s.lzCount := rfl
@[simp] theorem State.writeStatus_errByte (v : Word) (s : State) : (s.writeStatus v).errByte = s.errByte := rfl
@[simp] theorem State.writeStatus_errIndex (v : Word) (s : State) : (s.writeStatus v).errIndex = s.errIndex := rfl
@[simp] theorem State.writeStatus_inBuf (v : Word) (s : State) : (s.writeStatus v).inBuf = s.inBuf := rfl
@[simp] theorem State.writeStatus_outBuf (v : Word) (s : State) : (s.writeStatus v).outBuf = s.outBuf := rfl
@[simp] theorem State.writeStatus_seq (v : Word) (s : State) : (s.writeStatus v).seq = s.seq := rfl
@[simp] theorem State.writeStatus_pend (v : Word) (s : State) : (s.writeStatus v).pend = s.pend := rfl
@[simp] theorem State.writeStatus_draws (v : Word) (s : State) : (s.writeStatus v).draws = s.draws := rfl
@[simp] theorem State.writeStatus_inBatch (v : Word) (s : State) : (s.writeStatus v).inBatch = s.inBatch := rfl
@[simp] theorem State.writeStatus_outBatch (v : Word) (s : State) : (s.writeStatus v).outBatch = s.outBatch := rfl
@[simp] theorem State.writeStatus_resp (v : Word) (s : State) : (s.writeStatus v).resp = s.resp := rfl
@[simp] theorem State.writeStatus_script (v : Word) (s : State) : (s.writeStatus v).script = s.script := rfl
@[simp] theorem State.writeStatus_vals (v : Word) (s : State) : (s.writeStatus v).vals = s.vals := rfl
@[simp] theorem State.writeStatus_sched (v : Word) (s : State) : (s.writeStatus v).sched = s.sched := rfl

/-! ### State.resetBlock: the reset step (70_reset_and_hazards.md R154) -/

@[simp] theorem State.resetBlock_cfg (s : State) : s.resetBlock.cfg = s.cfg := rfl
@[simp] theorem State.resetBlock_rst (s : State) : s.resetBlock.rst = false := rfl
@[simp] theorem State.resetBlock_ctrl (s : State) : s.resetBlock.ctrl = { ie := false } := rfl
@[simp] theorem State.resetBlock_status (s : State) : s.resetBlock.status = { busy := false, done := false, err := false, ovr := false, errcode := 0 } := rfl
@[simp] theorem State.resetBlock_cmdLast (s : State) : s.resetBlock.cmdLast = 0 := rfl
@[simp] theorem State.resetBlock_inLen (s : State) : s.resetBlock.inLen = 0 := rfl
@[simp] theorem State.resetBlock_outLen (s : State) : s.resetBlock.outLen = 0 := rfl
@[simp] theorem State.resetBlock_lzCount (s : State) : s.resetBlock.lzCount = 0 := rfl
@[simp] theorem State.resetBlock_errByte (s : State) : s.resetBlock.errByte = 0 := rfl
@[simp] theorem State.resetBlock_errIndex (s : State) : s.resetBlock.errIndex = 0 := rfl
@[simp] theorem State.resetBlock_inBuf (s : State) : s.resetBlock.inBuf = [] := rfl
@[simp] theorem State.resetBlock_outBuf (s : State) : s.resetBlock.outBuf = [] := rfl
@[simp] theorem State.resetBlock_seq (s : State) : s.resetBlock.seq = .idle := rfl
@[simp] theorem State.resetBlock_pend (s : State) : s.resetBlock.pend = 0 := rfl
@[simp] theorem State.resetBlock_draws (s : State) : s.resetBlock.draws = s.draws + 2 := rfl
@[simp] theorem State.resetBlock_inBatch (s : State) : s.resetBlock.inBatch = s.draws := rfl
@[simp] theorem State.resetBlock_outBatch (s : State) : s.resetBlock.outBatch = s.draws + 1 := rfl
@[simp] theorem State.resetBlock_resp (s : State) : s.resetBlock.resp = s.resp := rfl
@[simp] theorem State.resetBlock_script (s : State) : s.resetBlock.script = s.script := rfl
@[simp] theorem State.resetBlock_vals (s : State) : s.resetBlock.vals = s.vals := rfl
@[simp] theorem State.resetBlock_sched (s : State) : s.resetBlock.sched = s.sched := rfl

/-! ### State.popTurn: a turn is used up (log 6) -/

@[simp] theorem State.popTurn_cfg (s : State) : s.popTurn.cfg = s.cfg := rfl
@[simp] theorem State.popTurn_rst (s : State) : s.popTurn.rst = s.rst := rfl
@[simp] theorem State.popTurn_ctrl (s : State) : s.popTurn.ctrl = s.ctrl := rfl
@[simp] theorem State.popTurn_status (s : State) : s.popTurn.status = s.status := rfl
@[simp] theorem State.popTurn_cmdLast (s : State) : s.popTurn.cmdLast = s.cmdLast := rfl
@[simp] theorem State.popTurn_inLen (s : State) : s.popTurn.inLen = s.inLen := rfl
@[simp] theorem State.popTurn_outLen (s : State) : s.popTurn.outLen = s.outLen := rfl
@[simp] theorem State.popTurn_lzCount (s : State) : s.popTurn.lzCount = s.lzCount := rfl
@[simp] theorem State.popTurn_errByte (s : State) : s.popTurn.errByte = s.errByte := rfl
@[simp] theorem State.popTurn_errIndex (s : State) : s.popTurn.errIndex = s.errIndex := rfl
@[simp] theorem State.popTurn_inBuf (s : State) : s.popTurn.inBuf = s.inBuf := rfl
@[simp] theorem State.popTurn_outBuf (s : State) : s.popTurn.outBuf = s.outBuf := rfl
@[simp] theorem State.popTurn_seq (s : State) : s.popTurn.seq = s.seq := rfl
@[simp] theorem State.popTurn_pend (s : State) : s.popTurn.pend = s.pend := rfl
@[simp] theorem State.popTurn_draws (s : State) : s.popTurn.draws = s.draws := rfl
@[simp] theorem State.popTurn_inBatch (s : State) : s.popTurn.inBatch = s.inBatch := rfl
@[simp] theorem State.popTurn_outBatch (s : State) : s.popTurn.outBatch = s.outBatch := rfl
@[simp] theorem State.popTurn_resp (s : State) : s.popTurn.resp = s.resp := rfl
@[simp] theorem State.popTurn_script (s : State) : s.popTurn.script = s.script := rfl
@[simp] theorem State.popTurn_vals (s : State) : s.popTurn.vals = s.vals := rfl
@[simp] theorem State.popTurn_sched (s : State) : s.popTurn.sched = s.sched.tail := rfl

/-! ### State.releaseReset: RST is released (R155) -/

@[simp] theorem State.releaseReset_cfg (s : State) : s.releaseReset.cfg = s.cfg := rfl
@[simp] theorem State.releaseReset_rst (s : State) : s.releaseReset.rst = false := rfl
@[simp] theorem State.releaseReset_ctrl (s : State) : s.releaseReset.ctrl = s.ctrl := rfl
@[simp] theorem State.releaseReset_status (s : State) : s.releaseReset.status = s.status := rfl
@[simp] theorem State.releaseReset_cmdLast (s : State) : s.releaseReset.cmdLast = s.cmdLast := rfl
@[simp] theorem State.releaseReset_inLen (s : State) : s.releaseReset.inLen = s.inLen := rfl
@[simp] theorem State.releaseReset_outLen (s : State) : s.releaseReset.outLen = s.outLen := rfl
@[simp] theorem State.releaseReset_lzCount (s : State) : s.releaseReset.lzCount = s.lzCount := rfl
@[simp] theorem State.releaseReset_errByte (s : State) : s.releaseReset.errByte = s.errByte := rfl
@[simp] theorem State.releaseReset_errIndex (s : State) : s.releaseReset.errIndex = s.errIndex := rfl
@[simp] theorem State.releaseReset_inBuf (s : State) : s.releaseReset.inBuf = s.inBuf := rfl
@[simp] theorem State.releaseReset_outBuf (s : State) : s.releaseReset.outBuf = s.outBuf := rfl
@[simp] theorem State.releaseReset_seq (s : State) : s.releaseReset.seq = s.seq := rfl
@[simp] theorem State.releaseReset_pend (s : State) : s.releaseReset.pend = s.pend := rfl
@[simp] theorem State.releaseReset_draws (s : State) : s.releaseReset.draws = s.draws := rfl
@[simp] theorem State.releaseReset_inBatch (s : State) : s.releaseReset.inBatch = s.inBatch := rfl
@[simp] theorem State.releaseReset_outBatch (s : State) : s.releaseReset.outBatch = s.outBatch := rfl
@[simp] theorem State.releaseReset_resp (s : State) : s.releaseReset.resp = s.resp := rfl
@[simp] theorem State.releaseReset_script (s : State) : s.releaseReset.script = s.script := rfl
@[simp] theorem State.releaseReset_vals (s : State) : s.releaseReset.vals = s.vals := rfl
@[simp] theorem State.releaseReset_sched (s : State) : s.releaseReset.sched = s.sched := rfl

/-! ### The flags (10_state.md R22 to R27) -/

@[simp] theorem Status.accepted_busy (st : Status) : st.accepted.busy = true := rfl
@[simp] theorem Status.accepted_done (st : Status) : st.accepted.done = false := rfl
@[simp] theorem Status.accepted_err (st : Status) : st.accepted.err = false := rfl
@[simp] theorem Status.accepted_ovr (st : Status) : st.accepted.ovr = st.ovr := rfl
@[simp] theorem Status.accepted_errcode (st : Status) : st.accepted.errcode = 0 := rfl

@[simp] theorem Status.completed_busy (c : ErrCode) (st : Status) : (st.completed c).busy = false := rfl
@[simp] theorem Status.completed_done (c : ErrCode) (st : Status) : (st.completed c).done = true := rfl
@[simp] theorem Status.completed_err (c : ErrCode) (st : Status) : (st.completed c).err = decide (c ≠ .none) := rfl
@[simp] theorem Status.completed_ovr (c : ErrCode) (st : Status) : (st.completed c).ovr = st.ovr := rfl
@[simp] theorem Status.completed_errcode (c : ErrCode) (st : Status) : (st.completed c).errcode = c.code := rfl

@[simp] theorem Status.overrun_busy (st : Status) : st.overrun.busy = st.busy := rfl
@[simp] theorem Status.overrun_done (st : Status) : st.overrun.done = st.done := rfl
@[simp] theorem Status.overrun_err (st : Status) : st.overrun.err = st.err := rfl
@[simp] theorem Status.overrun_ovr (st : Status) : st.overrun.ovr = true := rfl
@[simp] theorem Status.overrun_errcode (st : Status) : st.overrun.errcode = st.errcode := rfl

@[simp] theorem Status.writeOneClear_busy (v : Word) (st : Status) : (st.writeOneClear v).busy = st.busy := rfl
@[simp] theorem Status.writeOneClear_done (v : Word) (st : Status) : (st.writeOneClear v).done = (st.done && !v.getLsbD 1) := rfl
@[simp] theorem Status.writeOneClear_err (v : Word) (st : Status) : (st.writeOneClear v).err = st.err := rfl
@[simp] theorem Status.writeOneClear_ovr (v : Word) (st : Status) : (st.writeOneClear v).ovr = (st.ovr && !v.getLsbD 3) := rfl
@[simp] theorem Status.writeOneClear_errcode (v : Word) (st : Status) : (st.writeOneClear v).errcode = st.errcode := rfl

end Sys2Proof.Machine
end

