-- ==== Sys2Proof/Laws/Ops.lean ====
section
/-! SUPPORT. What the operations on the state do, each said once: `finish`, the outcomes of the commands, the
register writes and the reset step. -/

namespace Sys2Proof.Machine

/-! ### Reading a buffer byte -/

/-- A result byte reads back after it is stored. -/
theorem outByte_storeResult (out : List Byte) (k : Nat) (s : State) (i : Nat) (v : Byte) (h : out[i]? = some v) :
    (s.storeResult out k).outByte i = v := by
  simp [State.outByte, Memory.get_ofBytes, h]

/-- A buffer's stored bytes depend on its cells and its batch only. -/
theorem inByte_congr {s t : State} (h1 : t.inBuf = s.inBuf) (h2 : t.inBatch = s.inBatch) (i : Nat) :
    t.inByte i = s.inByte i := by
  simp [State.inByte, h1, h2]

theorem outByte_congr {s t : State} (h1 : t.outBuf = s.outBuf) (h2 : t.outBatch = s.outBatch) (i : Nat) :
    t.outByte i = s.outByte i := by
  simp [State.outByte, h1, h2]

@[simp] theorem input_length (s : State) (n : Nat) : (s.input n).length = n := by simp [State.input]

/-! ### finish (40_sequencer.md R92) -/

theorem finish_ok (out : List Byte) (k : Nat) (s : State) :
    finish (.ok out k) s = (s.storeResult out k).complete .none := rfl

theorem finish_okNoOutput (s : State) : finish .okNoOutput s = s.complete .none := rfl

theorem finish_fail_touched (c : ErrCode) (b : Byte) (i : Nat) (s : State) :
    finish (.fail c true b i) s = (s.redrawOut.recordFailure b i).complete c := rfl

theorem finish_fail_untouched (c : ErrCode) (b : Byte) (i : Nat) (s : State) :
    finish (.fail c false b i) s = (s.recordFailure b i).complete c := rfl

/-- Everything `finish` leaves alone, and the flags it sets: all but OUT_BUF, its draws and the result registers. -/
theorem finish_frame (r : Result) (s : State) :
    (finish r s).cfg = s.cfg ∧ (finish r s).rst = s.rst ∧ (finish r s).ctrl = s.ctrl ∧
    (finish r s).status = s.status.completed r.errCode ∧ (finish r s).cmdLast = s.cmdLast ∧
    (finish r s).inLen = s.inLen ∧ (finish r s).inBuf = s.inBuf ∧ (finish r s).inBatch = s.inBatch ∧
    (finish r s).seq = .idle ∧ (finish r s).pend = s.pend ∧ (finish r s).resp = s.resp ∧
    (finish r s).script = s.script ∧ (finish r s).vals = s.vals ∧ (finish r s).sched = s.sched := by
  cases r with
  | ok out k => simp [finish, Result.errCode]
  | okNoOutput => simp [finish, Result.errCode]
  | fail c touched b i => cases touched <;> simp [finish, Result.errCode]

/-! ### The outcomes of the commands (R93) -/

/-- A completion leaves the draws and OUT_BUF's batch alone, or gives OUT_BUF the next unused one (R92; log 4). -/
theorem finish_draws (r : Result) (s : State) :
    ((finish r s).draws = s.draws ∧ (finish r s).outBatch = s.outBatch) ∨
    ((finish r s).draws = s.draws + 1 ∧ (finish r s).outBatch = s.draws) := by
  rcases r with _ | _ | ⟨c, _ | _, _, _⟩
  · exact .inr ⟨rfl, rfl⟩
  · exact .inl ⟨rfl, rfl⟩
  · exact .inl ⟨rfl, rfl⟩
  · exact .inr ⟨rfl, rfl⟩

/-- A conversion's fitted result: its bytes if they fit, else OUT_OVERFLOW. -/
theorem fitted_cases (cap : Nat) (out : List Byte) (k : Nat) :
    (out.length ≤ cap ∧ fitted cap out k = .ok out k) ∨
    (cap < out.length ∧ fitted cap out k = .fail .outOverflow true 0 0) := by
  unfold fitted
  split
  · exact .inr ⟨by omega, rfl⟩
  · exact .inl ⟨by omega, rfl⟩

/-- Everything ENCODE's outcome can be, with its conditions (41_encode.md R103). -/
theorem encodeResult_cases (a : Asel) (s : State) :
    (s.cfg.inCap < s.inLen.toNat ∧ encodeResult a s = .fail .lenRange true 0 0) ∨
    (s.inLen.toNat ≤ s.cfg.inCap ∧
      ((enc (alphabet s.cfg a) (s.input s.inLen.toNat)).1.length ≤ s.cfg.outCap ∧
        encodeResult a s = .ok (enc (alphabet s.cfg a) (s.input s.inLen.toNat)).1 (lzc (s.input s.inLen.toNat)) ∨
      s.cfg.outCap < (enc (alphabet s.cfg a) (s.input s.inLen.toNat)).1.length ∧
        encodeResult a s = .fail .outOverflow true 0 0)) := by
  unfold encodeResult
  split
  · exact .inl ⟨by omega, rfl⟩
  · refine .inr ⟨by omega, ?_⟩
    rcases fitted_cases s.cfg.outCap (enc (alphabet s.cfg a) (s.input s.inLen.toNat)).1
        (enc (alphabet s.cfg a) (s.input s.inLen.toNat)).2 with ⟨h, e⟩ | ⟨h, e⟩
    · exact .inl ⟨h, e⟩
    · exact .inr ⟨h, e⟩

/-- Everything DECODE's outcome can be, with its conditions (42_decode.md R119). -/
theorem decodeResult_cases (a : Asel) (s : State) :
    (s.cfg.inCap < s.inLen.toNat ∧ decodeResult a s = .fail .lenRange true 0 0) ∨
    (s.inLen.toNat ≤ s.cfg.inCap ∧
      ((∃ c i, dec (alphabet s.cfg a) (s.input s.inLen.toNat) = .invalidChar c i ∧
          decodeResult a s = .fail .invalidChar true c i) ∨
       (∃ out k, dec (alphabet s.cfg a) (s.input s.inLen.toNat) = .ok out k ∧
          ((out.length ≤ s.cfg.outCap ∧ decodeResult a s = .ok out k) ∨
           (s.cfg.outCap < out.length ∧ decodeResult a s = .fail .outOverflow true 0 0))))) := by
  unfold decodeResult
  split
  · exact .inl ⟨by omega, rfl⟩
  · refine .inr ⟨by omega, ?_⟩
    cases h : dec (alphabet s.cfg a) (s.input s.inLen.toNat) with
    | invalidChar c i => exact .inl ⟨c, i, rfl, rfl⟩
    | ok out k => exact .inr ⟨out, k, rfl, fitted_cases s.cfg.outCap out k⟩

/-- What an outcome of any command is like: a result fits OUT_BUF, a failure has a code other than NONE, and only
INVALID_CHAR records a byte and an index (60_exceptions.md R133). -/
structure Result.Sound (outCap : Nat) (r : Result) : Prop where
  fits : ∀ out k, r = .ok out k → out.length ≤ outCap
  failed : ∀ c touched b e, r = .fail c touched b e → c ≠ .none
  undiagnosed : ∀ c touched b e, r = .fail c touched b e → c ≠ .invalidChar → b = 0 ∧ e = 0

theorem sound_ok (cap : Nat) (out : List Byte) (k : Nat) (h : out.length ≤ cap) : (Result.ok out k).Sound cap where
  fits := by rintro o j ⟨⟩; exact h
  failed := by simp
  undiagnosed := by simp

theorem sound_okNoOutput (cap : Nat) : Result.okNoOutput.Sound cap := by constructor <;> simp

theorem sound_fail (cap : Nat) (c : ErrCode) (touched : Bool) (h : c ≠ .none) :
    (Result.fail c touched 0 0).Sound cap where
  fits := by simp
  failed := by rintro c' t b e ⟨⟩; exact h
  undiagnosed := by rintro c' t b e ⟨⟩ -; exact ⟨rfl, rfl⟩

theorem sound_invalidChar (cap : Nat) (touched : Bool) (b : Byte) (e : Nat) :
    (Result.fail .invalidChar touched b e).Sound cap where
  fits := by simp
  failed := by rintro c t b' e' ⟨⟩; simp
  undiagnosed := by rintro c t b' e' ⟨⟩ h; exact absurd rfl h

theorem encodeResult_sound (a : Asel) (s : State) : (encodeResult a s).Sound s.cfg.outCap := by
  rcases encodeResult_cases a s with ⟨-, h⟩ | ⟨-, ⟨hl, h⟩ | ⟨-, h⟩⟩ <;> rw [h]
  · exact sound_fail _ _ _ (by simp)
  · exact sound_ok _ _ _ hl
  · exact sound_fail _ _ _ (by simp)

theorem decodeResult_sound (a : Asel) (s : State) : (decodeResult a s).Sound s.cfg.outCap := by
  rcases decodeResult_cases a s with ⟨-, h⟩ | ⟨-, ⟨c, i, -, h⟩ | ⟨out, k, -, ⟨hl, h⟩ | ⟨-, h⟩⟩⟩ <;> rw [h]
  · exact sound_fail _ _ _ (by simp)
  · exact sound_invalidChar _ _ _ _
  · exact sound_ok _ _ _ hl
  · exact sound_fail _ _ _ (by simp)

/-- Everything the completion of a command can answer: a next state, the `finish` of a sound outcome. -/
theorem exec_cases (i : Instr) (s : State) :
    ∃ r, exec i s = .next (finish r s) ∧ r.Sound s.cfg.outCap := by
  cases i with
  | nop => exact ⟨.okNoOutput, rfl, sound_okNoOutput _⟩
  | encode a => exact ⟨encodeResult a s, rfl, encodeResult_sound a s⟩
  | decode a => exact ⟨decodeResult a s, rfl, decodeResult_sound a s⟩

/-! ### The writes that a command in flight drops (R86, R87, R89) -/

theorem writeCmd_idle (v : Word) (s : State) (h : s.seq = .idle) : s.writeCmd v = s.accept v := by
  simp [State.writeCmd, h]

theorem writeCmd_busy (v : Word) (s : State) (h : s.seq = .busy) : s.writeCmd v = s.dropWrite := by
  simp [State.writeCmd, h]

theorem writeInLen_idle (v : Word) (s : State) (h : s.seq = .idle) : s.writeInLen v = { s with inLen := v } := by
  simp [State.writeInLen, h]

theorem writeInLen_busy (v : Word) (s : State) (h : s.seq = .busy) : s.writeInLen v = s.dropWrite := by
  simp [State.writeInLen, h]

theorem writeIn_idle (i : Nat) (bs : List Byte) (s : State) (h : s.seq = .idle) :
    s.writeIn i bs = { s with inBuf := s.inBuf.setBytes i bs } := by
  simp [State.writeIn, h]

theorem writeIn_busy (i : Nat) (bs : List Byte) (s : State) (h : s.seq = .busy) :
    s.writeIn i bs = s.dropWrite := by
  simp [State.writeIn, h]

/-! ### RST (70_reset_and_hazards.md R153, R154) -/

theorem assertReset_low (s : State) (h : s.rst = false) : s.assertReset = { s.resetBlock with rst := true } := by
  simp [State.assertReset, h]

theorem assertReset_high (s : State) (h : s.rst = true) : s.assertReset = s := by
  simp [State.assertReset, h]

end Sys2Proof.Machine
end

