-- ==== Sys2Proof/Laws/PerInstr.lean ====
section
/-! SUPPORT. Statements about every command as syntax, one lemma per constructor of `Instr`. -/

/-- The fields of a command's word are RSVD = 0, its OP and its ASEL (spec 30_encoding.md R73 to R75). -/
def Sys2Proof.Laws.Fields.Statement (i : Sys2Proof.Instr) : Prop :=
  Sys2Proof.rsvdField (Sys2Proof.encode i) = 0 ∧ Sys2Proof.opField (Sys2Proof.encode i) = Sys2Proof.opBits i ∧
    Sys2Proof.aselField (Sys2Proof.encode i) = Sys2Proof.aselFieldOf i

theorem Sys2Proof.Laws.Fields.nop : Sys2Proof.Laws.Fields.Statement .nop := by
  refine ⟨?_, ?_, ?_⟩ <;> decide

theorem Sys2Proof.Laws.Fields.encode (a : Sys2Proof.Asel) : Sys2Proof.Laws.Fields.Statement (.encode a) := by
  cases a <;> refine ⟨?_, ?_, ?_⟩ <;> decide

theorem Sys2Proof.Laws.Fields.decode (a : Sys2Proof.Asel) : Sys2Proof.Laws.Fields.Statement (.decode a) := by
  cases a <;> refine ⟨?_, ?_, ?_⟩ <;> decide
end

