-- ==== Sys2Proof/Laws/Step.lean ====
section
/-! SUPPORT. What a bus transaction, a turn and a step can do, each said once. -/

namespace Sys2Proof.Machine

theorem sizeBytes_range (n : Size) : 1 ≤ sizeBytes n ∧ sizeBytes n ≤ 4 := by cases n <;> decide

/-- Bit k of the data of consecutive bytes is bit k mod 8 of byte k div 8 (20_memory.md R51). -/
theorem lanes_getLsbD (bs : List Byte) (k : Nat) (hk : k < 32) :
    (lanes bs).getLsbD k = (bs.getD (k / 8) 0#8).getLsbD (k % 8) := by
  induction bs generalizing k with
  | nil => simp [lanes]
  | cons b bs ih =>
    simp only [lanes, BitVec.getLsbD_or, BitVec.getLsbD_shiftLeft]
    by_cases h : k < 8
    · have h1 : k / 8 = 0 := by omega
      have h2 : k % 8 = k := by omega
      simp [h, h1, h2, hk]
    · have h1 : k / 8 = (k - 8) / 8 + 1 := by omega
      have h2 : k % 8 = (k - 8) % 8 := by omega
      have h3 : b.getLsbD k = false := BitVec.getLsbD_of_ge b k (by omega)
      rw [ih (k - 8) (by omega), h1, h2]
      simp [h, hk, h3]

@[simp] theorem writeLanes_length (n : Size) (v : Word) : (writeLanes n v).length = sizeBytes n := by
  simp [writeLanes]

/-- Everything a write that ends OK can do to the block (20_memory.md R56). -/
theorem busWrite_cases (off : Nat) (n : Size) (v : Word) (s : State) :
    (off = 0x004 ∧ busWrite off n v s = s.writeCtrl v) ∨
    (off = 0x008 ∧ busWrite off n v s = s.writeStatus v) ∨
    (off = 0x00C ∧ busWrite off n v s = s.writeCmd v) ∨
    (off = 0x010 ∧ busWrite off n v s = s.writeInLen v) ∨
    (0x10000 ≤ off ∧ off - 0x10000 + sizeBytes n ≤ s.cfg.inCap ∧
      busWrite off n v s = s.writeIn (off - 0x10000) (writeLanes n v)) ∨
    (off ≠ 0x004 ∧ off ≠ 0x008 ∧ off ≠ 0x00C ∧ off ≠ 0x010 ∧
      ¬ (0x10000 ≤ off ∧ off - 0x10000 + sizeBytes n ≤ s.cfg.inCap) ∧ busWrite off n v s = s) := by
  unfold busWrite
  split
  · simp
  · simp
  · simp
  · simp
  · rename_i h1 h2 h3 h4
    split
    · rename_i h
      exact .inr (.inr (.inr (.inr (.inl ⟨h.1, h.2, rfl⟩))))
    · rename_i h
      exact .inr (.inr (.inr (.inr (.inr ⟨h1, h2, h3, h4, h, rfl⟩))))

/-- What no write that ends OK touches: the configuration, the draws, the port and the HOST. -/
theorem busWrite_frame (off : Nat) (n : Size) (v : Word) (s : State) :
    (busWrite off n v s).cfg = s.cfg ∧ (busWrite off n v s).draws = s.draws ∧
    (busWrite off n v s).inBatch = s.inBatch ∧ (busWrite off n v s).outBatch = s.outBatch ∧
    (busWrite off n v s).resp = s.resp ∧ (busWrite off n v s).script = s.script ∧
    (busWrite off n v s).vals = s.vals := by
  rcases busWrite_cases off n v s with ⟨-, e⟩ | ⟨-, e⟩ | ⟨-, e⟩ | ⟨-, e⟩ | ⟨-, -, e⟩ | ⟨-, -, -, -, -, e⟩ <;> rw [e]
  · exact ⟨rfl, rfl, rfl, rfl, rfl, rfl, rfl⟩
  · exact ⟨rfl, rfl, rfl, rfl, rfl, rfl, rfl⟩
  · unfold State.writeCmd
    split <;> exact ⟨rfl, rfl, rfl, rfl, rfl, rfl, rfl⟩
  · unfold State.writeInLen
    split <;> exact ⟨rfl, rfl, rfl, rfl, rfl, rfl, rfl⟩
  · unfold State.writeIn
    split <;> exact ⟨rfl, rfl, rfl, rfl, rfl, rfl, rfl⟩
  · exact ⟨rfl, rfl, rfl, rfl, rfl, rfl, rfl⟩

/-- A read changes nothing but the counter of draws (R55, R58). -/
theorem afterRead_cases (off : Nat) (s : State) :
    s.afterRead off = s ∨
    (s.status.busy = true ∧ outWindow s.cfg off = true ∧ s.afterRead off = { s with draws := s.draws + 1 }) := by
  unfold State.afterRead
  split
  · rename_i h
    simp only [Bool.and_eq_true] at h
    exact .inr ⟨h.1, h.2, rfl⟩
  · exact .inl rfl

@[simp] theorem hostHalted_popTurn (s : State) : s.popTurn.hostHalted = s.hostHalted := rfl

theorem hostHalted_iff (s : State) :
    s.hostHalted = true ↔ s.resp = some .error ∧ s.cfg.busErrorAction = .fault := by
  simp [State.hostHalted]

/-- What the HOST does after an ERROR, by BUS_ERROR_ACTION (60_exceptions.md R138; log 8). -/
theorem hostError_cases (rest : List HostOp) (s : State) :
    (s.cfg.busErrorAction = .ignore ∧ s.hostError rest = { s with resp := some .error, script := rest }) ∨
    (s.cfg.busErrorAction = .fault ∧ s.hostError rest = { s with resp := some .error } ∧
      (s.hostError rest).hostHalted = true) := by
  unfold State.hostError
  split
  · rename_i h
    exact .inl ⟨h, rfl⟩
  · rename_i h
    exact .inr ⟨h, rfl, by simp [hostHalted_iff, h]⟩

/-- Everything the HOST's turn can do when it goes on: nothing, an ERROR, a write, a named read or one read of a
POLL, at the block offset its address reaches. -/
theorem hostStep_cases (s t : State) (h : hostStep s = .next t) :
    ((s.script = [] ∨ s.hostHalted = true) ∧ t = s) ∨
    ∃ op rest off, s.hostHalted = false ∧ s.script = op :: rest ∧ blockOffset s.cfg op.addr = some off ∧
      ((∃ a n v w, op = .write a n v ∧ hostVal s v = some w ∧ t = hostWrite off n w rest s) ∨
       (∃ a n x, op = .read a n x ∧ t = hostRead off n x rest s) ∨
       (∃ a m v, op = .poll a m v ∧ t = hostPoll off m v (op :: rest) rest s)) := by
  unfold hostStep at h
  split at h
  · rename_i hh
    cases h
    exact .inl ⟨.inr hh, rfl⟩
  rename_i hh
  split at h
  · rename_i hs
    cases h
    exact .inl ⟨.inl hs, rfl⟩
  · rename_i op rest hs
    right
    split at h
    · rename_i off hoff
      refine ⟨op, rest, off, by simpa using hh, hs, hoff, ?_⟩
      cases op with
      | write a n v =>
        simp only [hostOp] at h
        split at h
        · rename_i w hw
          cases h
          exact .inl ⟨a, n, v, w, rfl, hw, rfl⟩
        · cases h
      | read a n x =>
        simp only [hostOp] at h
        cases h
        exact .inr (.inl ⟨a, n, x, rfl, rfl⟩)
      | poll a m v =>
        simp only [hostOp] at h
        cases h
        exact .inr (.inr ⟨a, m, v, rfl, rfl⟩)
    · cases h

/-- The completion step always goes on, with the `finish` of a sound outcome (R92, R93). -/
theorem completion_cases (s : State) :
    ∃ r, completion s = .next (finish r s) ∧ r.Sound s.cfg.outCap := by
  unfold completion
  split
  · exact exec_cases _ s
  · exact ⟨.fail .illegalCmd false 0 0, rfl, sound_fail _ _ _ (by simp)⟩

theorem engineEnabled_iff (s : State) : engineEnabled s = true ↔ s.seq = .busy ∧ s.rst = false := by
  simp [engineEnabled]

/-- Everything a step can do when it goes on (R7): the completion step where it is enabled, a HOST's turn, the reset
input, or nothing. -/
theorem step_cases (s t : State) (h : step s = .next t) :
    (s.seq = .busy ∧ s.rst = false ∧ completion s.popTurn = .next t) ∨
    (hostStep s.popTurn = .next t) ∨
    (t = s.popTurn.assertReset) ∨
    (t = s.popTurn.releaseReset) ∨
    (t = s.popTurn) := by
  unfold step at h
  split at h
  · rename_i u us hs
    have hp : ({ s with sched := us } : State) = s.popTurn := by
      apply State.ext <;> simp [hs]
    rw [hp] at h
    cases u with
    | host => exact .inr (.inl h)
    | engine =>
      simp only [turnStep, engineStep] at h
      split at h
      · rename_i he
        obtain ⟨h1, h2⟩ := (engineEnabled_iff _).mp he
        exact .inl ⟨h1, h2, h⟩
      · cases h
        exact .inr (.inr (.inr (.inr rfl)))
    | rstAssert =>
      simp only [turnStep] at h
      cases h
      exact .inr (.inr (.inl rfl))
    | rstRelease =>
      simp only [turnStep] at h
      cases h
      exact .inr (.inr (.inr (.inl rfl)))
  · rename_i hs
    have hp : s = s.popTurn := by
      apply State.ext <;> simp [hs]
    unfold freeStep at h
    split at h
    · rename_i he
      obtain ⟨h1, h2⟩ := (engineEnabled_iff _).mp he
      exact .inl ⟨h1, h2, by rw [← hp]; exact h⟩
    · exact .inr (.inl (by rw [← hp]; exact h))

/-- The turn of the engine, listed or by default, is what the very next step of a placed command is. -/
theorem step_withFetchWord (s : State) (nbits w : Nat) :
    step (s.withFetchWord nbits w) =
      completion { s.accept (probeWord nbits w) with rst := false } := by
  simp [step, State.withFetchWord, State.placeCommand, turnStep, engineStep, engineEnabled, State.accept]

end Sys2Proof.Machine
end

