-- ==== Sys2Proof/Laws/Rules.lean ====
section
/-! SUPPORT. What a step can do to the block, in the terms of the claims: the inversion lemma that the whole-machine
rules follow from. -/

namespace Sys2Proof.Machine

/-- A register write that ends OK is a 32-bit one (20_memory.md R53). -/
theorem word_of_register_access {s : State} {off : Nat} {n : Size} (h : busError s off n = false)
    (ho : off < 0x100) : n = .word := by
  by_contra hn
  simp [busError, ho, hn] at h

theorem rst_of_access {s : State} {off : Nat} {n : Size} (h : busError s off n = false) : s.rst = false := by
  simp only [busError, Bool.or_eq_false_iff] at h
  exact h.2

theorem hostError_sameBlock (rest : List HostOp) (s : State) : s.SameBlock (s.hostError rest) := by
  unfold State.hostError
  split <;> constructor <;> rfl

theorem hostRead_sameBlock (off : Nat) (n : Size) (x : Nat) (rest : List HostOp) (s : State) :
    s.SameBlock { hostRead off n x rest s with draws := s.draws } := by
  unfold hostRead
  split
  · unfold State.hostError
    split <;> constructor <;> rfl
  · rcases afterRead_cases off s with e | ⟨-, -, e⟩ <;> rw [e] <;> constructor <;> rfl

theorem hostPoll_sameBlock (off : Nat) (m v : Word) (again rest : List HostOp) (s : State) :
    s.SameBlock { hostPoll off m v again rest s with draws := s.draws } := by
  unfold hostPoll
  split
  · unfold State.hostError
    split <;> constructor <;> rfl
  · rcases afterRead_cases off s with e | ⟨-, -, e⟩ <;> rw [e] <;> constructor <;> rfl

theorem assertReset_host (s : State) :
    s.assertReset.script = s.script ∧ s.assertReset.resp = s.resp ∧ s.assertReset.cfg = s.cfg := by
  unfold State.assertReset
  split <;> exact ⟨rfl, rfl, rfl⟩

/-- Everything a step that goes on can do to the HOST: nothing; or its first operation leaves the script by completing,
or stays in it, after an ERROR or as a POLL whose condition has not come. -/
theorem step_script_cases (s t : State) (h : step s = .next t) :
    (t.script = s.script ∧ t.resp = s.resp ∧ t.cfg = s.cfg) ∨
    (s.hostHalted = false ∧ t.cfg = s.cfg ∧ ∃ op rest, s.script = op :: rest ∧
      ((t.script = rest ∧ completesWith op s.cfg t.resp) ∨
       (t.script = s.script ∧ (t.resp = some .error ∨ ∃ w, t.resp = some (.data w))))) := by
  have hcfg : ∀ off, (s.popTurn.afterRead off).cfg = s.cfg := fun off => by
    rcases afterRead_cases off s.popTurn with e | ⟨-, -, e⟩ <;> rw [e] <;> rfl
  rcases step_cases s t h with ⟨-, -, hc⟩ | hh | rfl | rfl | rfl
  · obtain ⟨r, e, -⟩ := completion_cases s.popTurn
    rw [e] at hc
    cases hc
    obtain ⟨hc, -, -, -, -, -, -, -, -, -, hr, hs, -, -⟩ := finish_frame r s.popTurn
    exact .inl ⟨hs, hr, hc⟩
  · rcases hostStep_cases _ t hh with
      ⟨-, rfl⟩ | ⟨op, rest, off, hr, hs, -, ⟨a, n, v, w, rfl, -, rfl⟩ | ⟨a, n, x, rfl, rfl⟩ | ⟨a, m, v, rfl, rfl⟩⟩
    · exact .inl ⟨rfl, rfl, rfl⟩
    · right
      unfold hostWrite
      split
      · rcases hostError_cases rest s.popTurn with ⟨i, e⟩ | ⟨-, e, -⟩ <;> rw [e]
        · exact ⟨hr, rfl, _, _, hs, .inl ⟨rfl, .inr (.inr ⟨rfl, i, by simp⟩)⟩⟩
        · exact ⟨hr, rfl, _, _, hs, .inr ⟨rfl, .inl rfl⟩⟩
      · exact ⟨hr, (busWrite_frame off n w s.popTurn).1, _, _, hs, .inl ⟨rfl, .inl ⟨rfl, _, _, _, rfl⟩⟩⟩
    · right
      unfold hostRead
      split
      · rcases hostError_cases rest (s.popTurn.forget x) with ⟨i, e⟩ | ⟨-, e, -⟩ <;> rw [e]
        · exact ⟨hr, rfl, _, _, hs, .inl ⟨rfl, .inr (.inr ⟨rfl, i, by simp⟩)⟩⟩
        · exact ⟨hr, rfl, _, _, hs, .inr ⟨rfl, .inl rfl⟩⟩
      · exact ⟨hr, hcfg off, _, _, hs, .inl ⟨rfl, .inr (.inl ⟨_, rfl, .inl ⟨_, _, _, rfl⟩⟩)⟩⟩
    · right
      unfold hostPoll
      split
      · rcases hostError_cases (.poll a m v :: rest) s.popTurn with ⟨-, e⟩ | ⟨-, e, -⟩ <;> rw [e]
        · exact ⟨hr, rfl, _, _, hs, .inr ⟨hs.symm, .inl rfl⟩⟩
        · exact ⟨hr, rfl, _, _, hs, .inr ⟨rfl, .inl rfl⟩⟩
      · refine ⟨hr, hcfg off, _, _, hs, ?_⟩
        by_cases hq : readData s.popTurn off .word &&& m = v
        · exact .inl ⟨by simp [hq], .inr (.inl ⟨_, rfl, .inr ⟨_, _, _, rfl, hq⟩⟩)⟩
        · exact .inr ⟨by simpa [hq] using hs.symm, .inr ⟨_, rfl⟩⟩
  · exact .inl (assertReset_host s.popTurn)
  · exact .inl ⟨rfl, rfl, rfl⟩
  · exact .inl ⟨rfl, rfl, rfl⟩

/-- Everything a step that goes on can do to the block: the completion step, a HOST's write that ends OK, nothing,
the reset step, or the release of RST. -/
theorem step_block_cases (s t : State) (h : step s = .next t) :
    (s.seq = .busy ∧ s.rst = false ∧ completion s.popTurn = .next t) ∨
    (∃ off n w rest, s.hostWrites off n w ∧ busError s.popTurn off n = false ∧
      t = { busWrite off n w s.popTurn with resp := some .written, script := rest }) ∨
    s.SameBlock t ∨
    (t.AtReset ∧ t.rst = true ∧ s.rst = false) ∨
    t = s.popTurn.releaseReset := by
  rcases step_cases s t h with hc | hh | rfl | rfl | rfl
  · exact .inl hc
  · rcases hostStep_cases _ t hh with
      ⟨-, rfl⟩ | ⟨op, rest, off, hr, hs, ho, ⟨a, n, v, w, rfl, hv, rfl⟩ | ⟨a, n, x, -, rfl⟩ | ⟨a, m, v, -, rfl⟩⟩
    · exact .inr (.inr (.inl (by constructor <;> rfl)))
    · by_cases he : busError s.popTurn off n = true
      · right; right; left
        obtain ⟨_, _, _, _, _, _, _, _, _, _, _, _, _, _, _, _⟩ := hostError_sameBlock rest s.popTurn
        simp only [hostWrite, he, if_true]
        constructor <;> assumption
      · exact .inr (.inl ⟨off, n, w, rest, ⟨hr, a, v, rest, hs, ho, hv⟩, by simpa using he, by simp [hostWrite, he]⟩)
    · right; right; left
      obtain ⟨_, _, _, _, _, _, _, _, _, _, _, _, _, _, _, _⟩ := hostRead_sameBlock off n x rest s.popTurn
      constructor <;> assumption
    · right; right; left
      obtain ⟨_, _, _, _, _, _, _, _, _, _, _, _, _, _, _, _⟩ :=
        hostPoll_sameBlock off m v (op :: rest) rest s.popTurn
      constructor <;> assumption
  · by_cases hr : s.rst = true
    · right; right; left
      rw [assertReset_high _ (by simpa using hr)]
      constructor <;> rfl
    · right; right; right; left
      have hr' : s.rst = false := by simpa using hr
      rw [assertReset_low _ (by simpa using hr')]
      exact ⟨by constructor <;> rfl, rfl, hr'⟩
  · exact .inr (.inr (.inr (.inr rfl)))
  · exact .inr (.inr (.inl (by constructor <;> rfl)))

end Sys2Proof.Machine
end

