-- ==== Sys2Proof/Tests/Slice0.lean ====
section
/-! SUPPORT. Tests with expected results from spec/95_test_vectors.md and the rules' own examples, the smoke tests of
the well-formedness checks, and a witness for the hypotheses of each statement. -/

namespace Sys2Proof.Machine.Tests

/-! ### Small states -/

/-- The configuration IN_CAP = 8, OUT_CAP = 4 of vectors N11 to N13. -/
def small : Config := { referenceConfig with inCap := 8, outCap := 4 }

/-- An IDLE block with an input written. -/
def idleWith (c : Config) (p : List Byte) : State :=
  { State.resetWith c with inBuf := Memory.ofBytes 0 p, inLen := BitVec.ofNat 32 p.length }

/-- A block with a command in flight. -/
def flight (c : Config) (w : Word) (p : List Byte) : State := (idleWith c p).accept w

/-- A block whose HOST runs a script. -/
def running (s : State) (ops : List HostOp) : State := { s with script := ops }

/-- A fact of the state a step goes on with. -/
def goesOn (o : Host.Outcome State Fault Refusal) (f : State → Bool) : Bool :=
  match o with
  | .next t => f t
  | .fault _ => false
  | .refused _ => false

theorem goesOn_next {o : Host.Outcome State Fault Refusal} {f : State → Bool} (h : goesOn o f = true) :
    ∃ t, o = .next t ∧ f t = true := by
  cases o with
  | next t => exact ⟨t, rfl, h⟩
  | fault r => cases h
  | refused r => cases h

/-! ### Well-formedness: each check refuses an ill-formed term -/

theorem test_capOk_refuses_not_multiple_of_four : capOk 6 = false := by decide
theorem test_capOk_refuses_too_small : capOk 0 = false := by decide
theorem test_capOk_refuses_too_large : capOk 65540 = false := by decide
theorem test_alphaOk_refuses_short_table : alphaOk (alphaBitcoin.drop 1) = false := by decide
theorem test_alphaOk_refuses_duplicate : alphaOk (0x31#8 :: alphaBitcoin.drop 1 |>.set 1 0x31#8) = false := by decide
theorem test_baseOk_refuses_unaligned_base : baseOk 0x1000 = false := by decide
theorem test_config_refuses_bad_capacity : Config.wf { referenceConfig with outCap := 5 } = false := by decide
theorem test_inWindow_refuses_address_beyond : HostOp.inWindow referenceConfig (r32 referenceConfig 0x30000 0) = false := by
  decide
theorem test_inWindow_refuses_address_below : HostOp.inWindow referenceConfig (.read 0x3FFFC .word 0) = false := by decide
theorem test_boundIn_refuses_unread_name : HostOp.boundIn [1, 2] (w32Result referenceConfig 0x010 3) = false := by decide
theorem test_scriptOk_refuses_use_before_read :
    scriptOk referenceConfig [] [w32Result referenceConfig 0x010 1, r32 referenceConfig 0x014 1] = false := by decide
theorem test_scriptOk_accepts_put : scriptOk referenceConfig [] (put referenceConfig [1#8, 2#8]) = true := by decide

/-! ### Encodings written out (30_encoding.md R73, R77; 95_test_vectors.md N2 to N6) -/

theorem test_word_nop : decodeTableWord 32 0b00000000000000000000000000000000 = some .nop := by decide
theorem test_word_encode_a0 : decodeTableWord 32 0b00000000000000000000000000000001 = some (.encode .a0) := by decide
theorem test_word_encode_a1 : decodeTableWord 32 0b00000000000000000000000000010001 = some (.encode .a1) := by decide
theorem test_word_decode_a0 : decodeTableWord 32 0b00000000000000000000000000000010 = some (.decode .a0) := by decide
theorem test_word_decode_a1 : decodeTableWord 32 0b00000000000000000000000000010010 = some (.decode .a1) := by decide
theorem test_word_reserved_op : decodeWord 0x00000003#32 = .illegal .reservedOp := by decide
theorem test_word_reserved_asel : decodeWord 0x00000021#32 = .illegal .reservedAsel := by decide
theorem test_word_nop_with_asel : decodeWord 0x00000010#32 = .illegal .reservedAsel := by decide
theorem test_word_reserved_bits : decodeWord 0x00000101#32 = .illegal .reservedBits := by decide
theorem test_word_all_ones : decodeWord 0xFFFFFFFF#32 = .illegal .reservedBits := by decide
theorem test_bytes_truncated : decodeBytes [1#8, 0#8, 0#8] = .illegal .notOneWord := by decide
theorem test_table_row_agrees : tableDecode 0x00000012#32 = some (.decode .a1) := by decide

/-! ### The alphabets (10_state.md R35) and the conversions (95_test_vectors.md) -/

/-- The ASCII strings of R35, character by character. -/
theorem test_alphabet_bitcoin_ascii :
    alphaBitcoin = "123456789ABCDEFGHJKLMNPQRSTUVWXYZabcdefghijkmnopqrstuvwxyz".toList.map
      (fun c => BitVec.ofNat 8 c.toNat) := by decide

theorem test_alphabet_flickr_ascii :
    alphaFlickr = "123456789abcdefghijkmnopqrstuvwxyzABCDEFGHJKLMNPQRSTUVWXYZ".toList.map
      (fun c => BitVec.ofNat 8 c.toNat) := by decide

/-- E20, ASEL = 1: zeros followed by a multi-byte magnitude is "11233pc4", LZ_COUNT 2. -/
theorem test_encode_zero_prefix_flickr :
    enc alphaFlickr [0x00#8, 0x00#8, 0x28#8, 0x7F#8, 0xB4#8, 0xCD#8] =
      ([0x31#8, 0x31#8, 0x32#8, 0x33#8, 0x33#8, 0x70#8, 0x63#8, 0x34#8], 2) := by decide

/-- D9, ASEL = 1: "1z1" decodes to 00 07 7A, the last '1' being a digit. -/
theorem test_decode_interleaved_zero_flickr :
    dec alphaFlickr [0x31#8, 0x7A#8, 0x31#8] = .ok [0x00#8, 0x07#8, 0x7A#8] 1 := by decide

/-- R128's worked example: after STATUS = 0x106, NOP leaves 0x002. -/
theorem test_nop_clears_error :
    goesOn (completion
      ({ State.reset with status := { busy := false, done := true, err := true, ovr := false, errcode := 1 } }.accept 0))
      (fun t => decide (t.status.toWord = 0x002#32)) = true := by decide

/-- N13: ENCODE A0 of FF FF FF needs 5 characters, more than OUT_CAP = 4: STATUS = 0x306, OUT_LEN = 0. -/
theorem test_encode_overflow :
    goesOn (completion (flight small 0x1#32 [0xFF#8, 0xFF#8, 0xFF#8]))
      (fun t => decide (t.status.toWord = 0x306#32 ∧ t.outLen = 0)) = true := by decide

/-- R103's worked example: "abc" gives "ZiCa"; a 32-bit read of OUT_BUF returns 0x6143695A (E16). -/
theorem test_encode_abc :
    goesOn (completion (flight referenceConfig 0x1#32 [0x61#8, 0x62#8, 0x63#8]))
      (fun t => decide (t.status.toWord = 0x002#32 ∧ t.outLen = 4 ∧ t.lzCount = 0 ∧
        readData t 0x20000 .word = 0x6143695A#32)) = true := by decide

/-- N12: DECODE A0 of "111111O" reports INVALID_CHAR 0x4F at 6 before OUT_OVERFLOW: STATUS = 0x106. -/
theorem test_decode_invalid_before_overflow :
    goesOn (completion (flight small 0x2#32 [0x31#8, 0x31#8, 0x31#8, 0x31#8, 0x31#8, 0x31#8, 0x4F#8]))
      (fun t => decide (t.status.toWord = 0x106#32 ∧ t.errByte = 0x4F#32 ∧ t.errIndex = 6)) = true := by decide

/-- D18: of two invalid bytes the rightmost is reported. -/
theorem test_decode_rightmost_invalid :
    dec alphaBitcoin [0x30#8, 0x4F#8] = .invalidChar 0x4F#8 1 := by decide

/-- N9: ILLEGAL_CMD ranks before LEN_RANGE: STATUS = 0x406. -/
theorem test_illegal_before_len_range :
    goesOn (completion { flight referenceConfig 0x3#32 [] with inLen := 129 })
      (fun t => decide (t.status.toWord = 0x406#32 ∧ t.cmdLast = 0x3#32)) = true := by decide

/-! ### The bus (95_test_vectors.md B1 to B13, N14 to N19) -/

/-- B1, B2, B3, B6: the transactions that end in a bus error; B4, B5: those that do not. -/
theorem test_bus_errors :
    busError State.reset 0x008 .half = true ∧ busError State.reset 0x000 .byte = true ∧
    busError State.reset 0x10002 .word = true ∧ busError State.reset 0x02C .byte = true ∧
    busError State.reset 0x10002 .half = false ∧ busError State.reset 0x02C .word = false := by decide

/-- B7, B8, B9, B11. -/
theorem test_bus_reads :
    readData State.reset 0x000 .word = 0x42353801#32 ∧ readData State.reset 0x100 .word = 0x34333231#32 ∧
    readData State.reset 0x139 .byte = 0x7A#32 ∧ readData State.reset 0x179 .byte = 0x5A#32 ∧
    readData State.reset 0x13A .byte = 0x00#32 ∧ readData State.reset 0x10080 .word = 0#32 := by decide

/-- N18: STATUS = 0x40E, then a write of 0xA leaves 0x404; N19: a write of 0x4 to 0x002 changes nothing. -/
theorem test_status_write_one_clear :
    (Status.writeOneClear { busy := false, done := true, err := true, ovr := true, errcode := 4 } 0xA#32).toWord
      = 0x404#32 ∧
    (Status.writeOneClear { busy := false, done := true, err := false, ovr := false, errcode := 0 } 0x4#32).toWord
      = 0x002#32 := by decide

/-- P4 (b): an ENCODE issued while the illegal word is in flight is dropped with OVR; (a) after its completion it is
accepted. -/
theorem test_second_command_dropped_or_accepted :
    goesOn (step (running (flight referenceConfig 0x3#32 []) [w32 referenceConfig 0x00C 1#32])) (fun t =>
      goesOn (step t) (fun u => decide (u.cmdLast = 1#32))) = true ∧
    goesOn (step { running (flight referenceConfig 0x3#32 []) [w32 referenceConfig 0x00C 1#32] with sched := [.host] })
      (fun t => decide (t.cmdLast = 3#32 ∧ t.status.ovr = true ∧ t.resp = some .written)) = true := by decide

/-- B13: a transaction while RST is asserted ends with ERROR. -/
theorem test_transaction_during_reset :
    goesOn (step (running State.reset.assertReset [r32 referenceConfig 0x000 0]))
      (fun t => decide (t.resp = some .error ∧ t.vals = [])) = true := by decide

/-- R170: after an ERROR that faults the HOST's transaction, the operation and all that follow stay in the script, the
run has not ended, and the HOST issues nothing more. -/
theorem test_faulted_script_has_not_ended :
    goesOn (step (running State.reset [w16 referenceConfig 0x008 0#32, poll referenceConfig 0x008 2#32 2#32])) (fun t =>
      decide (t.resp = some .error ∧ t.script.length = 2 ∧ t.hostHalted = true) && !runEnded t &&
      goesOn (step t) (fun u => decide (u.script.length = 2) && !runEnded u)) = true := by decide

/-- R170: the same script, with an ERROR the HOST ignores, goes on to a POLL that never sees its condition. -/
theorem test_ignored_error_then_endless_poll :
    goesOn (step (running (State.resetWith { small with busErrorAction := .ignore })
        [w16 small 0x008 0#32, poll small 0x008 2#32 2#32])) (fun t =>
      decide (t.resp = some .error ∧ t.script = [poll small 0x008 2#32 2#32]) && !runEnded t &&
      goesOn (step t) (fun u => decide (u.script = [poll small 0x008 2#32 2#32]) && !runEnded u)) = true := by decide

/-- A placed command is run by the very next step. -/
theorem test_withFetchWord_encode_runs :
    goesOn (step (State.reset.withFetchWord 32 0x11)) (fun t => decide (t.status.toWord = 0x002#32 ∧ t.cmdLast = 0x11#32))
      = true := by decide

/-! ### Witnesses: states and operands that meet the hypotheses of each statement -/

theorem witness_ExactlyFiveWordsAreLegal :
    0x00000003#32 ∉ [0x00000000#32, 0x00000001#32, 0x00000011#32, 0x00000002#32, 0x00000012#32] := by decide

theorem witness_NopCommand_idle_after_error :
    ({ State.reset with status := { busy := false, done := true, err := true, ovr := false, errcode := 1 } }).seq = .idle ∧
    ({ State.reset with status := { busy := false, done := true, err := true, ovr := false, errcode := 1 } }).status.toWord
      = 0x106#32 := by decide

theorem witness_NopCommand_busy : (flight referenceConfig 1#32 []).seq = .busy := by decide

theorem witness_IllegalCommand :
    decodeWord 0x00000003#32 = .illegal .reservedOp ∧ State.reset.seq = .idle ∧ State.reset.rst = false ∧
    State.reset.status.ovr = false := by decide

theorem witness_ReservedFields_each :
    3 ≤ ((flight small 0x00000003#32 []).pend.extractLsb' 0 4).toNat ∧
    ((flight small 0x00000021#32 []).pend.extractLsb' 0 4 = 1#4 ∧
      2 ≤ ((flight small 0x00000021#32 []).pend.extractLsb' 4 4).toNat) ∧
    ((flight small 0x00000010#32 []).pend.extractLsb' 0 4 = 0#4 ∧
      (flight small 0x00000010#32 []).pend.extractLsb' 4 4 ≠ 0#4) ∧
    (flight small 0x00000101#32 []).pend.extractLsb' 8 24 ≠ 0#24 := by decide

/-- LEN_RANGE (one byte above IN_CAP), OUT_OVERFLOW (5 characters in 4 bytes) and success (exactly 4 in 4 bytes). -/
theorem witness_EncodeCommandOutcome_each :
    small.wf = true ∧ small.inCap < ({ flight small 1#32 [] with inLen := 9 }).inLen.toNat ∧
    small.outCap < (enc alphaBitcoin ((flight small 1#32 [0xFF#8, 0xFF#8, 0xFF#8]).input 3)).1.length ∧
    (enc alphaBitcoin ((flight small 1#32 [0x61#8, 0x62#8, 0x63#8]).input 3)).1.length ≤ small.outCap := by decide

/-- INVALID_CHAR, OUT_OVERFLOW (7 zero bytes in 4, N11) and success (4 in 4). -/
theorem witness_DecodeCommandOutcome_each :
    small.wf = true ∧ small.inCap < ({ flight small 2#32 [] with inLen := 9 }).inLen.toNat ∧
    dec alphaBitcoin ((flight small 2#32 [0x31#8, 0x4F#8]).input 2) = .invalidChar 0x4F#8 1 ∧
    dec alphaBitcoin ((flight small 2#32 (List.replicate 7 0x31#8)).input 7) = .ok (List.replicate 7 0#8) 7 ∧
    dec alphaBitcoin ((flight small 2#32 (List.replicate 4 0x31#8)).input 4) = .ok (List.replicate 4 0#8) 4 := by decide

theorem witness_CompletionFrame :
    (∃ t, exec .nop (flight small 0#32 []) = .next t) ∧ (∃ t, exec (.encode .a1) (flight small 0x11#32 []) = .next t) ∧
    (∃ t, exec (.decode .a0) (flight small 2#32 []) = .next t) ∧
    0x10000 ∉ [0x008, 0x009, 0x00A, 0x00B] ∧ ¬ (0x014 ≤ 0x10000 ∧ 0x10000 < 0x024) ∧
    outWindow small 0x10000 = false := by
  refine ⟨⟨_, rfl⟩, ⟨_, rfl⟩, ⟨_, rfl⟩, ?_, ?_, ?_⟩ <;> decide

theorem witness_ErrorPriority_each :
    (∃ t, completion (flight small 3#32 []) = .next t) ∧
    decodeWord (flight small 3#32 []).pend = .illegal .reservedOp ∧
    decodeWord (flight small 0#32 []).pend = .instr .nop ∧
    decodeWord (flight small 1#32 []).pend = .instr (.encode .a0) ∧
    decodeWord (flight small 2#32 []).pend = .instr (.decode .a0) ∧
    small.inCap < ({ flight small 2#32 [] with inLen := 9 }).inLen.toNat ∧
    (∃ c ∈ (flight small 2#32 [0x4F#8]).input 1, inv alphaBitcoin c = none) ∧
    (∀ c ∈ (flight small 2#32 [0x31#8]).input 1, inv alphaBitcoin c ≠ none) := by
  refine ⟨⟨_, rfl⟩, ?_, ?_, ?_, ?_, ?_, ?_, ?_⟩ <;> decide

theorem regInv_of_flight (c : Config) (w : Word) (p : List Byte) : (flight c w p).RegInv := by
  refine ⟨⟨?_, ?_, ?_, ?_, ?_⟩, ?_, ?_, ?_, ?_⟩ <;> simp [flight]

/-- Two blocks in flight with the same input, one with the interrupt enabled and OVR set. -/
theorem witness_OutcomeDependsOnInputsAlone :
    State.SameInputs (flight small 1#32 [0x61#8]) ({ flight small 1#32 [0x61#8] with ctrl := { ie := true } }) ∧
    (flight small 1#32 [0x61#8]).RegInv ∧ ({ flight small 1#32 [0x61#8] with ctrl := { ie := true } }).RegInv ∧
    (flight small 1#32 [0x61#8]).seq = .busy ∧ (∃ t, completion (flight small 1#32 [0x61#8]) = .next t) ∧
    (∃ t, completion { flight small 1#32 [0x61#8] with ctrl := { ie := true } } = .next t) := by
  have h := regInv_of_flight small 1#32 [0x61#8]
  refine ⟨⟨rfl, rfl, rfl, fun _ _ => rfl⟩, h, ?_, rfl, ⟨_, rfl⟩, ⟨_, rfl⟩⟩
  exact ⟨⟨h.r47.in_flight, h.r47.err_code, h.r47.err_empty, h.r47.diagnostics, h.r47.out_len⟩, h.busy_seq,
    h.code_produced, h.err_byte, h.pend_last⟩

/-- The alphabet hypothesis of the conversion statements, and the other hypotheses beside it. -/
theorem witness_conversion_statements :
    alphaOk alphaBitcoin = true ∧ ([0x61#8, 0#8] : List Byte).head? ≠ some 0#8 ∧
    (∀ d ∈ [0, 57, 0], d < 58) ∧ 0 < 6382179 ∧
    dec alphaBitcoin [0x31#8, 0x5A#8] = .ok [0#8, 0x20#8] 1 ∧ enc alphaBitcoin [0#8, 0x20#8] = ([0x31#8, 0x5A#8], 1) ∧
    dec alphaBitcoin [0x5A#8, 0x4F#8] = .invalidChar 0x4F#8 1 ∧ 0x80 ≤ (0x80#8).toNat := by decide

theorem witness_LargeOutputBufferNeverOverflows :
    referenceConfig.inCap ≤ 128 ∧ 175 ≤ referenceConfig.outCap ∧ referenceConfig.wf = true ∧
    referenceConfig.inCap ≤ referenceConfig.outCap ∧
    (∃ t, exec (.encode .a0) (flight referenceConfig 1#32 [0xFF#8]) = .next t) ∧
    (∃ t, exec (.decode .a0) (flight referenceConfig 2#32 [0x31#8]) = .next t) := by
  refine ⟨?_, ?_, ?_, ?_, ⟨_, rfl⟩, ⟨_, rfl⟩⟩ <;> decide

/-- "abc" encoded, and "ZiCa" given to DECODE. -/
theorem witness_EncodeThenDecode :
    ∃ t, exec (.encode .a0) (flight small 1#32 [0x61#8, 0x62#8, 0x63#8]) = .next t ∧ small.wf = true ∧
      t.status.err = false ∧ (flight small 2#32 [0x5A#8, 0x69#8, 0x43#8, 0x61#8]).inLen = t.outLen ∧
      t.outLen.toNat ≤ small.inCap ∧ (flight small 1#32 [0x61#8, 0x62#8, 0x63#8]).inLen.toNat ≤ small.outCap ∧
      (flight small 2#32 [0x5A#8, 0x69#8, 0x43#8, 0x61#8]).input 4 = t.output t.outLen.toNat := by
  refine ⟨_, rfl, ?_, ?_, ?_, ?_, ?_, ?_⟩ <;> decide

theorem witness_StepRunsTheCommandInFlight_each :
    (flight small 1#32 []).seq = .busy ∧ (flight small 1#32 []).rst = false ∧ (flight small 1#32 []).sched = [] ∧
    ({ flight small 1#32 [] with sched := [.engine, .host] }).sched.head? = some .engine ∧
    decodeWord (flight small 1#32 []).pend = .instr (.encode .a0) ∧
    decodeWord (flight small 3#32 []).pend = .illegal .reservedOp := by decide

/-- A CMD write in each state of SEQ; the accepted one changes CMD_LAST. -/
theorem witness_CmdWritesAndCmdLast_each :
    State.reset.rst = false ∧ State.reset.seq = .idle ∧ (flight small 1#32 []).rst = false ∧
    (flight small 1#32 []).seq = .busy ∧
    (∃ t, step (running State.reset [w32 referenceConfig 0x00C 3#32]) = .next t ∧ t.cmdLast ≠ State.reset.cmdLast) := by
  refine ⟨by decide, by decide, by decide, by decide, ?_⟩
  obtain ⟨t, h, ht⟩ := goesOn_next (f := fun t => decide (t.cmdLast ≠ State.reset.cmdLast))
    (o := step (running State.reset [w32 referenceConfig 0x00C 3#32])) (by decide)
  exact ⟨t, h, of_decide_eq_true ht⟩

/-- SEQ and DONE move: IDLE to BUSY by a CMD write, BUSY to IDLE and DONE by the completion, and by RST. -/
theorem witness_SeqAndDone_each :
    goesOn (step (running State.reset [w32 referenceConfig 0x00C 3#32])) (fun t => decide (t.seq = .busy)) = true ∧
    goesOn (step (flight small 1#32 [])) (fun t => decide (t.seq = .idle ∧ t.status.done = true)) = true ∧
    goesOn (step { flight small 1#32 [] with sched := [.rstAssert] }) (fun t => decide (t.seq = .idle)) = true ∧
    (flight small 1#32 []).status.done = false := by decide

/-- DONE falls: by acceptance, by W1C, by RST. -/
theorem witness_DoneFalls_each :
    goesOn (completion (flight referenceConfig 0#32 [])) (fun s => s.status.done &&
      goesOn (step (running s [w32 referenceConfig 0x00C 0#32])) (fun t => !t.status.done) &&
      goesOn (step (running s [w32 referenceConfig 0x008 2#32])) (fun t => !t.status.done) &&
      goesOn (step { s with sched := [.rstAssert] }) (fun t => !t.status.done)) = true := by decide

/-- Every case of the writes while BUSY, at the edges of IN_BUF. -/
theorem witness_WritesWhileBusy_each :
    (flight small 1#32 []).seq = .busy ∧ small.wf = true ∧
    busError (flight small 1#32 []) 0x00C .word = false ∧ busError (flight small 1#32 []) 0x010 .word = false ∧
    busError (flight small 1#32 []) 0x10000 .word = false ∧ busError (flight small 1#32 []) 0x10007 .byte = false ∧
    busError (flight small 1#32 []) 0x10008 .byte = false ∧ busError (flight small 1#32 []) 0x004 .word = false ∧
    busError (flight small 1#32 []) 0x008 .word = false ∧ busError (flight small 1#32 []) 0x20000 .word = false := by
  decide

/-- OVR rises by each of the three dropped writes, and falls by W1C and by RST. -/
theorem witness_Ovr_each :
    goesOn (step { running (flight small 1#32 []) [w32 small 0x00C 1#32] with sched := [.host] })
      (fun t => t.status.ovr) = true ∧
    goesOn (step { running (flight small 1#32 []) [w32 small 0x010 1#32] with sched := [.host] })
      (fun t => t.status.ovr) = true ∧
    goesOn (step { running (flight small 1#32 []) [w8 small 0x10007 1#32] with sched := [.host] }) (fun t => t.status.ovr &&
      goesOn (step { running t [w32 small 0x008 8#32] with sched := [.host] }) (fun u => !u.status.ovr) &&
      goesOn (step { t with sched := [.rstAssert] }) (fun u => !u.status.ovr)) = true ∧
    (flight small 1#32 []).status.ovr = false := by decide

/-- IN_LEN and IN_BUF change by IDLE writes, and IN_LEN by RST. -/
theorem witness_InputsChange_each :
    goesOn (step (running (idleWith small []) [w32 small 0x010 5#32])) (fun t => decide (t.inLen = 5)) = true ∧
    goesOn (step (running (idleWith small []) [w8 small 0x10007 5#32])) (fun t => decide (t.inBuf = [(7, 5#8)])) = true ∧
    goesOn (step { idleWith small [1#8] with sched := [.rstAssert] }) (fun t => decide (t.inLen = 0 ∧ t.inBuf = []))
      = true := by decide

/-- A bus error for each cause, and none. -/
theorem witness_BusErrorExactly_each :
    busError (idleWith small []) 0x10001 .half = true ∧ busError (idleWith small []) 0x0FF .byte = true ∧
    busError (idleWith small []).assertReset 0x100 .byte = true ∧ busError (idleWith small []) 0x100 .byte = false := by
  decide

/-- The edges of the reserved ranges, IN_CAP = 8, OUT_CAP = 4. -/
theorem witness_ReservedAndReadOnlyOffsets :
    small.wf = true ∧ byteAt (idleWith small []) 0x2C = 0#8 ∧ byteAt (idleWith small []) 0xFF = 0#8 ∧
    byteAt (idleWith small []) 0x180 = 0#8 ∧ byteAt (idleWith small []) 0xFFFF = 0#8 ∧
    byteAt (idleWith small []) 0x10008 = 0#8 ∧ byteAt (idleWith small []) 0x1FFFF = 0#8 ∧
    byteAt (idleWith small []) 0x20004 = 0#8 ∧ byteAt (idleWith small []) 0x13A = 0#8 ∧
    byteAt (idleWith small []) 0x17F = 0#8 ∧ busError (idleWith small []) 0x000 .word = false ∧
    busError (idleWith small []) 0x014 .word = false ∧ busError (idleWith small []) 0x10008 .byte = false := by decide

/-- The last bytes of IN_BUF, IN_CAP = 8. -/
theorem witness_InBufWrite :
    (idleWith small []).seq = .idle ∧ small.wf = true ∧ busError (idleWith small []) 0x10006 .half = false ∧
    0x10006 < 0x10000 + small.inCap ∧
    byteAt (busWrite 0x10006 .half 0xABCD#32 (idleWith small [])) 0x10007 = 0xAB#8 := by decide

/-- The premises of the register and lane statements, at the edge of each range: an IDLE block, the last lane, the last
digit, and the last OUT_BUF byte of a small block. -/
theorem witness_RegisterWrites_lanes_windows_nop :
    (idleWith small []).seq = .idle ∧ 3 < sizeBytes .word ∧ 1 < sizeBytes .half ∧ 0 < sizeBytes .byte ∧ 57 < 58 ∧
    small.wf = true ∧ 3 < small.outCap := by decide

theorem witness_ReadsHaveNoSideEffect :
    small.wf = true ∧ busError (flight small 1#32 []) 0x20003 .byte = false ∧
    outWindow small 0x20004 = false ∧ outWindow small 0x20003 = true ∧ (flight small 1#32 []).status.busy = true ∧
    (idleWith small []).status.busy = false := by decide

theorem witness_WindowDecode :
    (running State.reset [r32 small 0x30000 0]).hostHalted = false ∧
    (running State.reset [r32 small 0x30000 0]).script = [r32 small 0x30000 0] ∧
    (r32 small 0x30000 0).addr = small.blockBase + 0x30000 ∧ (HostOp.read 0x3FFFC .word 0).addr < small.blockBase ∧
    0x2FFFF < 0x30000 := by decide

theorem witness_Irq_each :
    (∃ t, completion (flight small 0#32 []) = .next t) ∧ (0xA#32).getLsbD 1 = true ∧ (0x2#32).getLsbD 0 = false ∧
    (State.resetWith small).AtReset := by
  refine ⟨⟨_, rfl⟩, by decide, by decide, ?_⟩
  constructor <;> rfl

/-- A success with a byte beyond its result, and a failure. -/
theorem witness_UnspecifiedOutputIsRedrawn :
    small.wf = true ∧
    goesOn (exec (.encode .a0) (flight small 1#32 [0x61#8])) (fun t => decide (t.status.err = false ∧ t.outLen = 2))
      = true ∧
    goesOn (exec (.decode .a0) (flight small 2#32 [0x4F#8])) (fun t => t.status.err) = true ∧ 3 < small.outCap := by
  decide

/-- Each event that takes a batch: the reset step, a completion, and a read of OUT_BUF while BUSY. -/
theorem witness_EachDrawHasItsOwnBatch_each :
    goesOn (step { flight small 1#32 [] with sched := [.rstAssert] }) (fun t => decide (t.inBatch = 2 ∧ t.outBatch = 3))
      = true ∧
    goesOn (step (flight small 1#32 [])) (fun t => decide (t.outBatch = 2 ∧ t.draws = 3)) = true ∧
    (flight small 1#32 []).status.busy = true ∧ outWindow small 0x20000 = true ∧
    busError (flight small 1#32 []) 0x20000 .word = false := by decide

/-- An operation that leaves the script by each way of completing, and a HOST that has faulted. -/
theorem witness_RunEnds_each :
    goesOn (step (running (idleWith small []) [w32 small 0x010 1#32])) (fun t => decide (t.script = [])) = true ∧
    goesOn (step (running (idleWith small []) [r32 small 0x010 0])) (fun t => decide (t.script = [])) = true ∧
    goesOn (step (running (idleWith small []) [poll small 0x010 0#32 0#32])) (fun t => decide (t.script = [])) = true ∧
    goesOn (step (running (idleWith { small with busErrorAction := .ignore } []) [r16 small 0x010 0]))
      (fun t => decide (t.script = [])) = true ∧
    (running (idleWith small []) [r16 small 0x010 0]).hostHalted = false ∧
    goesOn (step (running (idleWith small []) [r16 small 0x010 0])) (fun t =>
      decide (t.resp = some .error ∧ t.cfg.busErrorAction = .fault ∧ t.hostHalted = true ∧ t.script ≠ []) &&
      goesOn (Sys2Proof.core.run 3 t) (fun _ => true)) = true := by decide

theorem bufInv_of_flight (c : Config) (w : Word) : (flight c w []).BufInv := by
  constructor <;> simp [flight, idleWith, State.resetWith, Memory.ofBytes]

theorem witness_ResetStep :
    ({ flight small 1#32 [] with sched := [.rstAssert] }).BufInv ∧ (flight small 1#32 []).rst = false ∧
    ∃ t, step { flight small 1#32 [] with sched := [.rstAssert] } = .next t := by
  have h := bufInv_of_flight small 1#32
  exact ⟨⟨h.in_wf, h.out_wf, h.result_listed, h.in_drawn, h.out_drawn, h.apart⟩, rfl, ⟨_, rfl⟩⟩

theorem witness_HeldWhileResetAsserted :
    (flight small 1#32 []).assertReset.rst = true ∧ (flight small 1#32 []).assertReset.AtReset ∧
    (∃ t, step (flight small 1#32 []).assertReset = .next t) := by
  refine ⟨rfl, ?_, ⟨_, rfl⟩⟩
  constructor <;> rfl

/-- A block in flight meets the invariant, and so does one whose RST is asserted. -/
theorem witness_EveryStepKeepsTheInvariant :
    (flight small 1#32 []).Inv ∧ ∃ t, step (flight small 1#32 []) = .next t := by
  refine ⟨⟨by decide, regInv_of_flight _ _ _, bufInv_of_flight _ _, fun h => by cases h⟩, ⟨_, rfl⟩⟩

theorem witness_ReachableStatesMeetR47 :
    small.wf = true ∧ ∃ t, Sys2Proof.core.run 2
      { State.resetWith small with script := [w32 small 0x00C 0#32], sched := [.host, .engine] } = .next t :=
  ⟨by decide, _, rfl⟩

/-- An IDLE block that meets the invariant, its HOST about to run a command, or to put an input. -/
theorem inv_of_idle (ops : List HostOp) : (running (State.resetWith small) ops).Inv := by
  refine ⟨show small.wf = true by decide, ⟨⟨?_, ?_, ?_, ?_, ?_⟩, ?_, ?_, ?_, ?_⟩, ?_, fun h => by cases h⟩
  all_goals first
    | constructor <;> simp [running, State.resetWith]
    | simp [running, State.resetWith]

theorem witness_RunCommandEnds :
    (running (State.resetWith small) (runCmd small (.instr (.encode .a0)) ++ [])).Inv ∧
    (running (State.resetWith small) (runCmd small (.instr (.encode .a0)) ++ [])).Ready :=
  ⟨inv_of_idle _, ⟨rfl, rfl, rfl, rfl⟩⟩

/-- 7 bytes fill an IN_BUF of 8. -/
theorem witness_PutWritesTheInput :
    (running (State.resetWith small) (put small (List.replicate 7 1#8) ++ [])).Inv ∧
    (running (State.resetWith small) (put small (List.replicate 7 1#8) ++ [])).Ready ∧
    4 * (((List.replicate 7 1#8).length + 3) / 4) ≤ small.inCap :=
  ⟨inv_of_idle _, ⟨rfl, rfl, rfl, rfl⟩, by decide⟩

end Sys2Proof.Machine.Tests
end

section
/-! SUPPORT. The sizes of the results of ENCODE and DECODE (00_scope.md R9, 41_encode.md R109, 42_decode.md R118), and
which buffer sizes exclude OUT_OVERFLOW. -/

namespace Sys2Proof.Machine

/-! ### Lengths of digit lists -/

theorem digits58_length_le_iff (x m : Nat) : (digits58 x).length ≤ m ↔ x < 58 ^ m := by
  rw [digits58_eq, List.length_reverse, Nat.digits_length_le_iff (by omega)]

theorem bytes256_length_le_iff (x m : Nat) : (bytes256 x).length ≤ m ↔ x < 256 ^ m := by
  rw [bytes256_eq, List.length_map, List.length_reverse, Nat.digits_length_le_iff (by omega)]

/-! ### ENCODE: the length of the text (41_encode.md R109) -/

/-- The leading zeros count for nothing in the value, so the other bytes bound it. -/
theorem val256_lt_without_leading_zeros (p : List Byte) : val256 p < 256 ^ (p.length - lzc p) := by
  have hsplit : val256 p = val256 (p.drop (lzc p)) := by
    conv_lhs => rw [leadingRun_split 0#8 p, val256_replicate_zero]
    rfl
  simpa [hsplit] using val256_lt (p.drop (lzc p))

/-- A text has at most L characters where 58^L is large enough for every payload of its length: a leading zero takes
one character, and any other byte is worth more than one. -/
theorem enc_length_le (table p : List Byte) (L : Nat) (h : 256 ^ p.length ≤ 58 ^ L) :
    (enc table p).1.length ≤ L := by
  have hk : lzc p ≤ p.length := leadingRun_le 0#8 p
  have hpL : p.length ≤ L :=
    (Nat.pow_le_pow_iff_right (by omega)).mp ((Nat.pow_le_pow_left (by omega : 58 ≤ 256) p.length).trans h)
  have hval : val256 p < 58 ^ (L - lzc p) := by
    refine Nat.lt_of_mul_lt_mul_left (a := 58 ^ lzc p) ?_
    calc 58 ^ lzc p * val256 p
        ≤ 256 ^ lzc p * val256 p := Nat.mul_le_mul_right _ (Nat.pow_le_pow_left (by omega) _)
      _ < 256 ^ lzc p * 256 ^ (p.length - lzc p) :=
          Nat.mul_lt_mul_of_pos_left (val256_lt_without_leading_zeros p) (by positivity)
      _ = 256 ^ p.length := by rw [← pow_add, Nat.add_sub_cancel' hk]
      _ ≤ 58 ^ L := h
      _ = 58 ^ lzc p * 58 ^ (L - lzc p) := by rw [← pow_add, Nat.add_sub_cancel' (hk.trans hpL)]
  have hm := (digits58_length_le_iff _ _).mpr hval
  rw [enc_length]
  omega

/-- 175 characters hold the text of every payload of at most 128 bytes (00_scope.md R9). -/
theorem pow256_le_pow58_175 {n : Nat} (h : n ≤ 128) : 256 ^ n ≤ 58 ^ 175 :=
  (Nat.pow_le_pow_right (by omega) h).trans (by norm_num)

/-! ### DECODE: the length of the payload (42_decode.md R118) -/

theorem inv_lt_length {table : List Byte} {c : Byte} {d : Nat} (h : inv table c = some d) : d < table.length :=
  (List.findIdx?_eq_some_iff_getElem.mp h).1

/-- The zero character stands for the digit 0. -/
theorem inv_charOf_zero {table : List Byte} (h : table ≠ []) : inv table (charOf table 0) = some 0 := by
  obtain ⟨c, cs, rfl⟩ := List.exists_cons_of_ne_nil h
  simp [inv, charOf, List.findIdx?_cons]

theorem digitsOf_append (table t u : List Byte) : digitsOf table (t ++ u) = digitsOf table t ++ digitsOf table u :=
  List.filterMap_append

theorem digitsOf_length_le (table t : List Byte) : (digitsOf table t).length ≤ t.length :=
  List.length_filterMap_le _ _

theorem digitsOf_lt {table t : List Byte} : ∀ d ∈ digitsOf table t, d < table.length := by
  intro d hd
  obtain ⟨c, -, hc⟩ := List.mem_filterMap.mp hd
  exact inv_lt_length hc

theorem digitsOf_replicate_zeroChar {table : List Byte} (h : table ≠ []) (k : Nat) :
    digitsOf table (List.replicate k (charOf table 0)) = List.replicate k 0 := by
  simp [digitsOf, List.filterMap_replicate_of_some (inv_charOf_zero h)]

/-- A scan that finds a value has met valid characters only. -/
theorem valid_of_scan_value {table : List Byte} {n : Nat} {cs : List Byte} {pos x v : Nat}
    (h : scan table n cs pos x = .value v) : ∀ c ∈ cs, (inv table c).isSome = true := by
  induction cs generalizing pos x with
  | nil => simp
  | cons c cs ih =>
    cases hc : inv table c with
    | none => simp [scan_cons_invalid _ _ _ _ _ _ hc] at h
    | some d =>
      rw [scan_cons_valid _ _ _ _ _ _ d hc] at h
      exact List.forall_mem_cons.mpr ⟨by simp [hc], ih h⟩

/-- The value a scan finds is the one the digits of its characters spell. -/
theorem scan_value_eq {table : List Byte} {n : Nat} {cs : List Byte} {v : Nat}
    (h : scan table n cs 0 0 = .value v) : v = Nat.ofDigits 58 (digitsOf table cs) := by
  obtain ⟨w, hw, e⟩ := scan_valid_append table n cs [] 0 0 (valid_of_scan_value h)
  rw [List.append_nil, h] at hw
  simp only [scan, Scan.value.injEq, zero_add] at hw
  rw [hw, e, pow_zero, one_mul]

/-- What a text that decodes gives: its zero prefix, then the bytes of the value its digits spell. -/
theorem dec_ok_eq {table t out : List Byte} {k : Nat} (h : dec table t = .ok out k) :
    k = zlc table t ∧
      out = List.replicate k 0#8 ++ bytes256 (Nat.ofDigits 58 (digitsOf table t.reverse)) := by
  unfold dec at h
  split at h
  · cases h
  · rename_i x hx
    cases h
    exact ⟨rfl, by rw [scan_value_eq hx]⟩

/-- The zero prefix counts for nothing in the value, so the other characters bound it. -/
theorem textValue_lt_without_zero_prefix {table : List Byte} (htable : table.length = 58) (t : List Byte) :
    Nat.ofDigits 58 (digitsOf table t.reverse) < 58 ^ (t.length - zlc table t) := by
  have hne : table ≠ [] := by rintro rfl; cases htable
  have hvalue : Nat.ofDigits 58 (digitsOf table t.reverse) =
      Nat.ofDigits 58 (digitsOf table (t.drop (zlc table t)).reverse) := by
    conv_lhs => rw [leadingRun_split (charOf table 0) t, List.reverse_append, List.reverse_replicate,
      digitsOf_append, digitsOf_replicate_zeroChar hne, Nat.ofDigits_append_replicate_zero]
    rfl
  have hlen := digitsOf_length_le table (t.drop (zlc table t)).reverse
  rw [List.length_reverse, List.length_drop] at hlen
  rw [hvalue]
  exact (Nat.ofDigits_lt_base_pow_length (by omega) (htable ▸ digitsOf_lt)).trans_le
    (Nat.pow_le_pow_right (by omega) hlen)

/-- A payload is no longer than the text it is decoded from (42_decode.md R118). -/
theorem dec_length_le {table t out : List Byte} {k : Nat} (htable : table.length = 58) (h : dec table t = .ok out k) :
    out.length ≤ t.length := by
  obtain ⟨hk, hout⟩ := dec_ok_eq h
  have hkt : k ≤ t.length := hk ▸ leadingRun_le _ _
  have hbytes : (bytes256 (Nat.ofDigits 58 (digitsOf table t.reverse))).length ≤ t.length - k :=
    (bytes256_length_le_iff _ _).mpr
      ((hk ▸ textValue_lt_without_zero_prefix htable t).trans_le (Nat.pow_le_pow_left (by omega) _))
  rw [hout, List.length_append, List.length_replicate]
  omega

/-! ### OUT_OVERFLOW (60_exceptions.md R136) -/

theorem alphabet_length {c : Config} (h : c.wf = true) (a : Asel) : (alphabet c a).length = 58 := by
  simp only [Config.wf, alphaOk, Bool.and_eq_true, decide_eq_true_eq] at h
  obtain ⟨⟨-, hlen0, -⟩, hlen1, -⟩ := h
  cases a
  · exact hlen0
  · exact hlen1

theorem errcode_finish (r : Result) (s : State) : (finish r s).status.errcode = r.errCode.code := by
  obtain ⟨-, -, -, hstatus, -⟩ := finish_frame r s
  rw [hstatus, Status.completed_errcode]

theorem encodeResult_errCode_ne_outOverflow (a : Asel) (s : State) (hin : s.cfg.inCap ≤ 128)
    (hout : 175 ≤ s.cfg.outCap) : (encodeResult a s).errCode ≠ .outOverflow := by
  rcases encodeResult_cases a s with ⟨-, e⟩ | ⟨hlen, ⟨-, e⟩ | ⟨hlong, -⟩⟩
  · simp [e, Result.errCode]
  · simp [e, Result.errCode]
  · have hfits := enc_length_le (alphabet s.cfg a) (s.input s.inLen.toNat) 175
      (pow256_le_pow58_175 (by rw [input_length]; omega))
    omega

theorem decodeResult_errCode_ne_outOverflow (a : Asel) (s : State) (hwf : s.cfg.wf = true)
    (hcap : s.cfg.inCap ≤ s.cfg.outCap) : (decodeResult a s).errCode ≠ .outOverflow := by
  rcases decodeResult_cases a s with ⟨-, e⟩ | ⟨hlen, ⟨c, i, -, e⟩ | ⟨out, k, hdec, ⟨-, e⟩ | ⟨hlong, -⟩⟩⟩
  · simp [e, Result.errCode]
  · simp [e, Result.errCode]
  · simp [e, Result.errCode]
  · have hfits := dec_length_le (alphabet_length hwf a) hdec
    rw [input_length] at hfits
    omega

/-- Only OUT_OVERFLOW has the number 3 (60_exceptions.md R133). -/
theorem code_eq_three_iff (c : ErrCode) : c.code = 3 ↔ c = .outOverflow := by
  cases c <;> decide

/-- Settles O22: the text of at most 128 bytes has at most 175 characters, and a payload has no more bytes than its
text has characters, so a result that is known fits. -/
theorem largeOutputBufferNeverOverflows : Obligations.LargeOutputBufferNeverOverflows := by
  refine ⟨?_, ?_⟩
  · rintro s _ a hin hout ⟨⟩
    rw [errcode_finish, ne_eq, code_eq_three_iff]
    exact encodeResult_errCode_ne_outOverflow a s hin hout
  · rintro s _ a hwf hcap ⟨⟩
    rw [errcode_finish, ne_eq, code_eq_three_iff]
    exact decodeResult_errCode_ne_outOverflow a s hwf hcap

end Sys2Proof.Machine
end

section
/-! SUPPORT. Which batches of draws an event takes (00_scope.md R13; log 4). -/

namespace Sys2Proof.Machine

/-! ### The HOST's transactions -/

@[simp] theorem hostError_draws (rest : List HostOp) (s : State) : (s.hostError rest).draws = s.draws := by
  rcases hostError_cases rest s with ⟨-, e⟩ | ⟨-, e, -⟩ <;> rw [e]

theorem draws_le_afterRead (off : Nat) (s : State) : s.draws ≤ (s.afterRead off).draws := by
  rcases afterRead_cases off s with e | ⟨-, -, e⟩ <;> simp [e]

/-- A read of OUT_BUF while BUSY uses one batch up (40_sequencer.md R95). -/
theorem afterRead_draws_of_busy {off : Nat} {s : State} (hbusy : s.status.busy = true)
    (hout : outWindow s.cfg off = true) : (s.afterRead off).draws = s.draws + 1 := by
  simp [State.afterRead, hbusy, hout]

theorem hostRead_draws_of_ok {off : Nat} {n : Size} {s : State} (x : Nat) (rest : List HostOp)
    (h : busError s off n = false) : (hostRead off n x rest s).draws = (s.afterRead off).draws := by
  simp [hostRead, h]

theorem hostPoll_draws_of_ok {off : Nat} {s : State} (m v : Word) (again rest : List HostOp)
    (h : busError s off .word = false) : (hostPoll off m v again rest s).draws = (s.afterRead off).draws := by
  simp [hostPoll, h]

theorem draws_le_hostRead (off : Nat) (n : Size) (x : Nat) (rest : List HostOp) (s : State) :
    s.draws ≤ (hostRead off n x rest s).draws := by
  by_cases h : busError s off n = true
  · simp [hostRead, h, State.forget]
  · rw [hostRead_draws_of_ok x rest (by simpa using h)]
    exact draws_le_afterRead off s

theorem draws_le_hostPoll (off : Nat) (m v : Word) (again rest : List HostOp) (s : State) :
    s.draws ≤ (hostPoll off m v again rest s).draws := by
  by_cases h : busError s off .word = true
  · simp [hostPoll, h]
  · rw [hostPoll_draws_of_ok m v again rest (by simpa using h)]
    exact draws_le_afterRead off s

/-- A write leaves the counter of batches and both buffers' batches alone. -/
theorem hostWrite_batches (off : Nat) (n : Size) (w : Word) (rest : List HostOp) (s : State) :
    (hostWrite off n w rest s).draws = s.draws ∧ (hostWrite off n w rest s).inBatch = s.inBatch ∧
    (hostWrite off n w rest s).outBatch = s.outBatch := by
  unfold hostWrite
  split
  · have hsame := hostError_sameBlock rest s
    exact ⟨hostError_draws rest s, hsame.inBatch, hsame.outBatch⟩
  · obtain ⟨-, hdraws, hin, hout, -⟩ := busWrite_frame off n w s
    exact ⟨hdraws, hin, hout⟩

/-- The HOST's turn keeps both buffers' batches, and the counter of batches does not fall. -/
theorem hostStep_batches {s t : State} (h : hostStep s = .next t) :
    s.draws ≤ t.draws ∧ t.inBatch = s.inBatch ∧ t.outBatch = s.outBatch := by
  rcases hostStep_cases s t h with
    ⟨-, rfl⟩ | ⟨op, rest, off, -, -, -, ⟨a, n, v, w, -, -, rfl⟩ | ⟨a, n, x, -, rfl⟩ | ⟨a, m, v, -, rfl⟩⟩
  · exact ⟨le_refl _, rfl, rfl⟩
  · obtain ⟨hdraws, hin, hout⟩ := hostWrite_batches off n w rest s
    exact ⟨hdraws.ge, hin, hout⟩
  · have hsame := hostRead_sameBlock off n x rest s
    exact ⟨draws_le_hostRead off n x rest s, hsame.inBatch, hsame.outBatch⟩
  · have hsame := hostPoll_sameBlock off m v (op :: rest) rest s
    exact ⟨draws_le_hostPoll off m v (op :: rest) rest s, hsame.inBatch, hsame.outBatch⟩

/-! ### The completion step and RST -/

/-- The completion step keeps IN_BUF's batch, and OUT_BUF's with the counter, or it gives OUT_BUF the next unused
batch. -/
theorem completion_batches {s t : State} (h : completion s = .next t) :
    t.inBatch = s.inBatch ∧
      ((t.draws = s.draws ∧ t.outBatch = s.outBatch) ∨ (t.draws = s.draws + 1 ∧ t.outBatch = s.draws)) := by
  obtain ⟨r, e, -⟩ := completion_cases s
  rw [e] at h
  cases h
  obtain ⟨-, -, -, -, -, -, -, hin, -⟩ := finish_frame r s
  exact ⟨hin, finish_draws r s⟩

/-- An assertion of RST changes nothing, or it resets the registers and gives each buffer an unused batch of its
own. -/
theorem assertReset_batches (s : State) :
    s.assertReset = s ∨
    (s.assertReset.AtReset ∧ s.assertReset.draws = s.draws + 2 ∧ s.assertReset.inBatch = s.draws ∧
      s.assertReset.outBatch = s.draws + 1) := by
  cases hrst : s.rst with
  | true => exact .inl (assertReset_high s hrst)
  | false =>
    rw [assertReset_low s hrst]
    exact .inr ⟨by constructor <;> rfl, rfl, rfl, rfl⟩

/-! ### No batch serves two events -/

/-- What a step does to the batches: the counter does not fall, and a batch that changes is one not used before. -/
theorem step_batches {s t : State} (h : step s = .next t) :
    s.draws ≤ t.draws ∧
    (t.inBatch = s.inBatch ∨ (s.draws ≤ t.inBatch ∧ t.inBatch < t.draws ∧ t.outBatch ≠ t.inBatch ∧ t.AtReset)) ∧
    (t.outBatch = s.outBatch ∨
      (s.draws ≤ t.outBatch ∧ t.outBatch < t.draws ∧ (t.AtReset ∨ completion s.popTurn = .next t))) := by
  rcases step_cases s t h with ⟨-, -, hcompletion⟩ | hhost | rfl | rfl | rfl
  · obtain ⟨hin, ⟨hdraws, hout⟩ | ⟨hdraws, hout⟩⟩ := completion_batches hcompletion
    · exact ⟨hdraws.ge, .inl hin, .inl hout⟩
    · simp only [State.popTurn_draws] at hdraws hout
      exact ⟨by omega, .inl hin, .inr ⟨by omega, by omega, .inr hcompletion⟩⟩
  · obtain ⟨hdraws, hin, hout⟩ := hostStep_batches hhost
    exact ⟨hdraws, .inl hin, .inl hout⟩
  · rcases assertReset_batches s.popTurn with e | ⟨hreset, hdraws, hin, hout⟩
    · rw [e]
      exact ⟨le_refl _, .inl rfl, .inl rfl⟩
    · simp only [State.popTurn_draws] at hdraws hin hout
      exact ⟨by omega, .inr ⟨by omega, by omega, by omega, hreset⟩, .inr ⟨by omega, by omega, .inl hreset⟩⟩
  · exact ⟨le_refl _, .inl rfl, .inl rfl⟩
  · exact ⟨le_refl _, .inl rfl, .inl rfl⟩

/-- Settles O58: every step takes its batches from the counter upward, and a read of OUT_BUF while BUSY moves the
counter on. -/
theorem eachDrawHasItsOwnBatch : Obligations.EachDrawHasItsOwnBatch := by
  refine ⟨fun s t h => step_batches h, fun s off n x m v again rest hbusy hout => ⟨fun h => ?_, fun h => ?_⟩⟩
  · rw [hostRead_draws_of_ok x rest h, afterRead_draws_of_busy hbusy hout]
  · rw [hostPoll_draws_of_ok m v again rest h, afterRead_draws_of_busy hbusy hout]

end Sys2Proof.Machine
end

section
/-! SUPPORT. The invariant of the machine: the state after reset meets it, every step keeps it, and so every reachable
state meets it (10_state.md R46, R47). -/

namespace Sys2Proof.Machine

/-! ### The invariant speaks of the block only -/

theorem State.AtReset.of_sameBlock {s t : State} (h : s.AtReset) (hsame : s.SameBlock t) : t.AtReset where
  ctrl := hsame.ctrl.trans h.ctrl
  status := hsame.status.trans h.status
  cmdLast := hsame.cmdLast.trans h.cmdLast
  inLen := hsame.inLen.trans h.inLen
  outLen := hsame.outLen.trans h.outLen
  lzCount := hsame.lzCount.trans h.lzCount
  errByte := hsame.errByte.trans h.errByte
  errIndex := hsame.errIndex.trans h.errIndex
  seq := hsame.seq.trans h.seq
  pend := hsame.pend.trans h.pend

theorem State.RegInv.of_sameBlock {s t : State} (h : s.RegInv) (hsame : s.SameBlock t) : t.RegInv := by
  obtain ⟨⟨hflight, hcode, hempty, hdiag, hlen⟩, hbusy, hproduced, hbyte, hpend⟩ := h
  refine ⟨⟨?_, ?_, ?_, ?_, ?_⟩, ?_, ?_, ?_, ?_⟩ <;>
    simpa only [hsame.cfg, hsame.status, hsame.cmdLast, hsame.outLen, hsame.lzCount, hsame.errByte, hsame.errIndex,
      hsame.seq, hsame.pend]

theorem State.BufInv.of_sameBlock {s t : State} (h : s.BufInv) (hsame : s.SameBlock t) (hdraws : s.draws ≤ t.draws) :
    t.BufInv where
  in_wf := by simpa only [hsame.cfg, hsame.inBuf] using h.in_wf
  out_wf := by simpa only [hsame.cfg, hsame.outBuf] using h.out_wf
  result_listed := by simpa only [hsame.outLen, hsame.outBuf] using h.result_listed
  in_drawn := hsame.inBatch ▸ h.in_drawn.trans_le hdraws
  out_drawn := hsame.outBatch ▸ h.out_drawn.trans_le hdraws
  apart := by simpa only [hsame.inBatch, hsame.outBatch] using h.apart

theorem State.Inv.of_sameBlock {s t : State} (h : s.Inv) (hsame : s.SameBlock t) (hdraws : s.draws ≤ t.draws) :
    t.Inv where
  cfg_wf := hsame.cfg ▸ h.cfg_wf
  reg := h.reg.of_sameBlock hsame
  buf := h.buf.of_sameBlock hsame hdraws
  held hrst := by
    obtain ⟨hreset, hin, hout⟩ := h.held (hsame.rst ▸ hrst)
    exact ⟨hreset.of_sameBlock hsame, hsame.inBuf.trans hin, hsame.outBuf.trans hout⟩

theorem State.Inv.popTurn {s : State} (h : s.Inv) : s.popTurn.Inv :=
  h.of_sameBlock (by constructor <;> rfl) (le_refl _)

/-! ### Reset -/

theorem State.AtReset.regInv {s : State} (h : s.AtReset) : s.RegInv := by
  refine ⟨⟨?_, ?_, ?_, ?_, ?_⟩, ?_, ?_, ?_, ?_⟩ <;>
    simp [h.status, h.outLen, h.errByte, h.errIndex, h.seq]

/-- A block at its reset values, with empty buffers and a batch of draws for each, meets the invariant whatever the
level of RST. -/
theorem State.AtReset.inv {s : State} (h : s.AtReset) (hcfg : s.cfg.wf = true) (hin : s.inBuf = [])
    (hout : s.outBuf = []) (hinDrawn : s.inBatch < s.draws) (houtDrawn : s.outBatch < s.draws)
    (hapart : s.inBatch ≠ s.outBatch) : s.Inv where
  cfg_wf := hcfg
  reg := h.regInv
  buf := ⟨by simp [hin], by simp [hout], by simp [h.outLen], hinDrawn, houtDrawn, hapart⟩
  held _ := ⟨h, hin, hout⟩

theorem resetWith_atReset (c : Config) : (State.resetWith c).AtReset := by constructor <;> rfl

theorem resetWith_inv {c : Config} (h : c.wf = true) : (State.resetWith c).Inv :=
  (resetWith_atReset c).inv h rfl rfl (by decide : 0 < 2) (by decide : 1 < 2) (by decide : 0 ≠ 1)

theorem State.Inv.assertReset {s : State} (h : s.Inv) : s.assertReset.Inv := by
  cases hrst : s.rst with
  | true => rwa [assertReset_high s hrst]
  | false =>
    rw [assertReset_low s hrst]
    exact State.AtReset.inv (by constructor <;> rfl) h.cfg_wf rfl rfl (Nat.lt_add_of_pos_right (by decide))
      (Nat.lt_succ_self _) (Nat.ne_of_lt (Nat.lt_succ_self _))

/-- The release of RST ends the hold and changes nothing else. -/
theorem State.Inv.releaseReset {s : State} (h : s.Inv) : s.releaseReset.Inv := by
  obtain ⟨hcfg, ⟨⟨hflight, hcode, hempty, hdiag, hlen⟩, hbusy, hproduced, hbyte, hpend⟩,
    ⟨hin, hout, hlisted, hinDrawn, houtDrawn, hapart⟩, -⟩ := h
  exact ⟨hcfg, ⟨⟨hflight, hcode, hempty, hdiag, hlen⟩, hbusy, hproduced, hbyte, hpend⟩,
    ⟨hin, hout, hlisted, hinDrawn, houtDrawn, hapart⟩, by simp⟩

/-! ### The HOST's writes -/

/-- Acceptance clears all that the invariant bounds (40_sequencer.md R88). -/
theorem State.Inv.accept {s : State} (h : s.Inv) (hrst : s.rst = false) (w : Word) : (s.accept w).Inv where
  cfg_wf := h.cfg_wf
  reg := by refine ⟨⟨?_, ?_, ?_, ?_, ?_⟩, ?_, ?_, ?_, ?_⟩ <;> simp
  buf := ⟨h.buf.in_wf, h.buf.out_wf, by simp, h.buf.in_drawn, h.buf.out_drawn, h.buf.apart⟩
  held := by simp [hrst]

/-- A write other than an accepted CMD write sets CTRL, IN_LEN and IN_BUF bytes below IN_CAP, OVR, and DONE at most
to 0: nothing the invariant relates. -/
theorem State.Inv.write {s : State} (h : s.Inv) (hrst : s.rst = false) {ctrl : Ctrl} {done ovr : Bool} {inLen : Word}
    {inBuf : Memory} (hdone : s.status.done = false → done = false) (hin : inBuf.wf s.cfg.inCap = true) :
    State.Inv { s with
      ctrl := ctrl, status := { s.status with done := done, ovr := ovr }, inLen := inLen, inBuf := inBuf } := by
  obtain ⟨hcfg, ⟨⟨hflight, hcode, hempty, hdiag, hlen⟩, hbusy, hproduced, hbyte, hpend⟩,
    ⟨-, hout, hlisted, hinDrawn, houtDrawn, hapart⟩, -⟩ := h
  refine ⟨hcfg, ⟨⟨fun hb => ?_, hcode, hempty, hdiag, hlen⟩, hbusy, hproduced, hbyte, hpend⟩,
    ⟨hin, hout, hlisted, hinDrawn, houtDrawn, hapart⟩, by simp [hrst]⟩
  obtain ⟨hd, hrest⟩ := hflight hb
  exact ⟨hdone hd, hrest⟩

theorem State.Inv.dropWrite {s : State} (h : s.Inv) (hrst : s.rst = false) : s.dropWrite.Inv :=
  h.write hrst id h.buf.in_wf

theorem State.Inv.writeCtrl {s : State} (h : s.Inv) (hrst : s.rst = false) (v : Word) : (s.writeCtrl v).Inv :=
  h.write hrst id h.buf.in_wf

theorem State.Inv.writeStatus {s : State} (h : s.Inv) (hrst : s.rst = false) (v : Word) : (s.writeStatus v).Inv :=
  h.write hrst (fun hd => by simp [hd]) h.buf.in_wf

theorem State.Inv.writeCmd {s : State} (h : s.Inv) (hrst : s.rst = false) (v : Word) : (s.writeCmd v).Inv := by
  cases hseq : s.seq with
  | idle => simpa only [writeCmd_idle v s hseq] using h.accept hrst v
  | busy => simpa only [writeCmd_busy v s hseq] using h.dropWrite hrst

theorem State.Inv.writeInLen {s : State} (h : s.Inv) (hrst : s.rst = false) (v : Word) : (s.writeInLen v).Inv := by
  cases hseq : s.seq with
  | idle => simpa only [writeInLen_idle v s hseq] using h.write hrst id h.buf.in_wf
  | busy => simpa only [writeInLen_busy v s hseq] using h.dropWrite hrst

theorem State.Inv.writeIn {s : State} (h : s.Inv) (hrst : s.rst = false) {i : Nat} {bs : List Byte}
    (hfits : i + bs.length ≤ s.cfg.inCap) : (s.writeIn i bs).Inv := by
  cases hseq : s.seq with
  | idle =>
    simpa only [writeIn_idle i bs s hseq] using
      h.write hrst id (Memory.wf_setBytes s.cfg.inCap bs s.inBuf i h.buf.in_wf hfits)
  | busy => simpa only [writeIn_busy i bs s hseq] using h.dropWrite hrst

/-- A write that ends OK keeps the invariant. -/
theorem State.Inv.busWrite {s : State} (h : s.Inv) (hrst : s.rst = false) (off : Nat) (n : Size) (v : Word) :
    (busWrite off n v s).Inv := by
  rcases busWrite_cases off n v s with
    ⟨-, e⟩ | ⟨-, e⟩ | ⟨-, e⟩ | ⟨-, e⟩ | ⟨-, hfits, e⟩ | ⟨-, -, -, -, -, e⟩ <;> rw [e]
  · exact h.writeCtrl hrst v
  · exact h.writeStatus hrst v
  · exact h.writeCmd hrst v
  · exact h.writeInLen hrst v
  · exact h.writeIn hrst (by simpa using hfits)
  · exact h

theorem State.Inv.hostWrite {s : State} (h : s.Inv) (off : Nat) (n : Size) (v : Word) (rest : List HostOp) :
    (hostWrite off n v rest s).Inv := by
  unfold Sys2Proof.Machine.hostWrite
  split
  · exact h.of_sameBlock (hostError_sameBlock rest s) (by simp)
  · rename_i hok
    have hrst : s.rst = false := rst_of_access (by simpa using hok)
    exact (h.busWrite hrst off n v).of_sameBlock (by constructor <;> rfl) (le_refl _)

/-! ### The HOST's turn -/

theorem State.SameBlock.of_draws {s t : State} {d : Nat} (h : s.SameBlock { t with draws := d }) : s.SameBlock t :=
  ⟨h.cfg, h.rst, h.ctrl, h.status, h.cmdLast, h.inLen, h.outLen, h.lzCount, h.errByte, h.errIndex, h.inBuf, h.outBuf,
    h.inBatch, h.outBatch, h.seq, h.pend⟩

theorem State.Inv.hostStep {s t : State} (h : s.Inv) (hstep : hostStep s = .next t) : t.Inv := by
  rcases hostStep_cases s t hstep with
    ⟨-, rfl⟩ | ⟨op, rest, off, -, -, -, ⟨a, n, v, w, -, -, rfl⟩ | ⟨a, n, x, -, rfl⟩ | ⟨a, m, v, -, rfl⟩⟩
  · exact h
  · exact h.hostWrite off n w rest
  · exact h.of_sameBlock (hostRead_sameBlock off n x rest s).of_draws (draws_le_hostRead off n x rest s)
  · exact h.of_sameBlock (hostPoll_sameBlock off m v (op :: rest) rest s).of_draws
      (draws_le_hostPoll off m v (op :: rest) rest s)

/-! ### The completion step -/

theorem code_eq_zero_iff (c : ErrCode) : c.code = 0#4 ↔ c = .none := by
  cases c <;> decide

theorem code_le_four (c : ErrCode) : c.code.toNat ≤ 4 := by
  cases c <;> decide

/-- The registers a completion leaves: an error empties the result, and only INVALID_CHAR has diagnostics. -/
theorem regInv_complete {c : ErrCode} {s : State} (hempty : c ≠ .none → s.outLen = 0 ∧ s.lzCount = 0)
    (hdiag : s.errByte ≠ 0 ∨ s.errIndex ≠ 0 → c = .invalidChar) (hlen : s.outLen.toNat ≤ s.cfg.outCap)
    (hbyte : s.errByte.toNat < 256) : (s.complete c).RegInv where
  r47 :=
    { in_flight := by simp
      err_code := by simp [code_eq_zero_iff]
      err_empty := by simpa using hempty
      diagnostics := fun hd => congrArg ErrCode.code (hdiag hd)
      out_len := hlen }
  busy_seq := by simp
  code_produced := code_le_four c
  err_byte := hbyte
  pend_last := by simp

theorem regInv_finish {r : Result} {s : State} (h : s.RegInv) (hseq : s.seq = .busy) (hr : r.Sound s.cfg.outCap) :
    (finish r s).RegInv := by
  obtain ⟨-, -, -, houtLen, -, herrByte, herrIndex⟩ := h.r47.in_flight (h.busy_seq.mpr hseq)
  cases r with
  | ok out lz =>
    refine regInv_complete (by simp) (by simp [herrByte, herrIndex]) ?_ (by simp [herrByte])
    exact (Nat.mod_le _ _).trans (hr.fits out lz rfl)
  | okNoOutput =>
    exact regInv_complete (by simp) (by simp [herrByte, herrIndex]) h.r47.out_len h.err_byte
  | fail c touched b i =>
    have hdiag : b.zeroExtend 32 ≠ 0 ∨ BitVec.ofNat 32 i ≠ 0 → c = .invalidChar := by
      contrapose!
      intro hc
      obtain ⟨rfl, rfl⟩ := hr.undiagnosed c touched b i rfl hc
      exact ⟨rfl, rfl⟩
    have hbyte : (b.zeroExtend 32).toNat < 256 := by simpa using (Nat.mod_le _ _).trans_lt b.isLt
    cases touched <;> exact regInv_complete (by simp) hdiag (by simp) hbyte

theorem bufInv_finish {r : Result} {s : State} (h : s.BufInv) (hr : r.Sound s.cfg.outCap) : (finish r s).BufInv := by
  obtain ⟨hin, hout, hlisted, hinDrawn, houtDrawn, hapart⟩ := h
  cases r with
  | ok out lz =>
    refine ⟨hin, Memory.wf_ofBytes _ out (hr.fits out lz rfl), fun i hi => ?_, Nat.lt_succ_of_lt hinDrawn,
      Nat.lt_succ_self _, hinDrawn.ne⟩
    have hi : i < out.length := hi.trans_le (Nat.mod_le _ _)
    simp [finish, Memory.get_ofBytes, hi]
  | okNoOutput => exact ⟨hin, hout, hlisted, hinDrawn, houtDrawn, hapart⟩
  | fail c touched b i =>
    cases touched with
    | false => exact ⟨hin, hout, by simp [finish], hinDrawn, houtDrawn, hapart⟩
    | true => exact ⟨hin, rfl, by simp [finish], Nat.lt_succ_of_lt hinDrawn, Nat.lt_succ_self _, hinDrawn.ne⟩

/-- The completion step of a command in flight keeps the invariant. -/
theorem State.Inv.completion {s t : State} (h : s.Inv) (hseq : s.seq = .busy) (hrst : s.rst = false)
    (hcompletion : completion s = .next t) : t.Inv := by
  obtain ⟨r, e, hr⟩ := completion_cases s
  rw [e] at hcompletion
  cases hcompletion
  obtain ⟨hcfg, hrst', -⟩ := finish_frame r s
  exact ⟨hcfg ▸ h.cfg_wf, regInv_finish h.reg hseq hr, bufInv_finish h.buf hr, by simp [hrst', hrst]⟩

/-! ### Every step, every run -/

theorem State.Inv.step {s t : State} (h : s.Inv) (hstep : step s = .next t) : t.Inv := by
  rcases step_cases s t hstep with ⟨hseq, hrst, hcompletion⟩ | hhost | rfl | rfl | rfl
  · exact h.popTurn.completion hseq hrst hcompletion
  · exact h.popTurn.hostStep hhost
  · exact h.popTurn.assertReset
  · exact h.popTurn.releaseReset
  · exact h.popTurn

/-- Settles O53: the completion step, the HOST's transactions and the two edges of RST each keep it. -/
theorem everyStepKeepsTheInvariant : Obligations.EveryStepKeepsTheInvariant :=
  fun _ _ h hstep => h.step hstep

/-- A run of one step more that goes on: its first step goes on, and the rest is a run from there. -/
theorem run_succ_next {M : Host.Core} {k : Nat} {s t : M.State} (h : M.run (k + 1) s = .next t) :
    ∃ u, M.step s = .next u ∧ M.run k u = .next t := by
  unfold Host.Core.run at h
  split at h
  · rename_i u hu
    exact ⟨u, hu, h⟩
  · cases h
  · cases h

/-- What every step keeps, every run keeps. -/
theorem run_keeps {M : Host.Core} {P : M.State → Prop} (hstep : ∀ s t, P s → M.step s = .next t → P t) {k : Nat}
    {s t : M.State} (hs : P s) (hrun : M.run k s = .next t) : P t := by
  induction k generalizing s with
  | zero =>
    cases hrun
    exact hs
  | succ k ih =>
    obtain ⟨u, hu, hrest⟩ := run_succ_next hrun
    exact ih (hstep s u hs hu) hrest

/-- Settles O54: the run starts in the state after reset, but for the script and the turns, which are no state of the
block. -/
theorem reachableStatesMeetR47 : Obligations.ReachableStatesMeetR47 := by
  intro c script sched k t hcfg hrun
  have hstart : State.Inv { State.resetWith c with script := script, sched := sched } :=
    (resetWith_inv hcfg).of_sameBlock (by constructor <;> rfl) (le_refl _)
  have hinv : t.Inv := run_keeps (M := Sys2Proof.core) (P := State.Inv) (fun _ _ h hstep => h.step hstep) hstart hrun
  exact ⟨hinv.reg.r47, hinv.reg.busy_seq⟩

theorem referenceConfig_wf : referenceConfig.wf = true := by decide

/-- Settles O52: the reset values meet it in every configuration the spec admits. -/
theorem resetMeetsTheInvariant : Obligations.ResetMeetsTheInvariant :=
  ⟨fun _ h => resetWith_inv h, resetWith_inv referenceConfig_wf⟩

/-- Settles O49: no byte is listed in either buffer. -/
theorem resetValues : Obligations.ResetValues :=
  ⟨fun c => ⟨resetWith_atReset c, rfl, rfl, fun _ => ⟨rfl, rfl⟩⟩, resetWith_atReset _, rfl, rfl⟩

end Sys2Proof.Machine
end

section
/-! SUPPORT. What an access of the HOST does to the flags and to CMD_LAST, what it reads from the registers, and which
offsets it finds reserved (10_state.md R19 to R45). -/

namespace Sys2Proof.Machine

/-! ### The HOST's writes and the flags -/

theorem busWrite_status (n : Size) (v : Word) (s : State) : busWrite 0x008 n v s = s.writeStatus v := rfl

theorem busWrite_cmd (n : Size) (v : Word) (s : State) : busWrite 0x00C n v s = s.writeCmd v := rfl

theorem busWrite_inLen (n : Size) (v : Word) (s : State) : busWrite 0x010 n v s = s.writeInLen v := rfl

/-- The writes a command in flight drops: to CMD, to IN_LEN and to IN_BUF (40_sequencer.md R89). -/
def droppedOffset (c : Config) (off : Nat) : Prop :=
  off = 0x00C ∨ off = 0x010 ∨ (0x10000 ≤ off ∧ off < 0x10000 + c.inCap)

/-- What a write that ends OK can do to STATUS and to CMD_LAST: nothing, the clearing of a STATUS write, acceptance, or
the drop of a write while BUSY. -/
theorem busWrite_flag_cases (off : Nat) (n : Size) (v : Word) (s : State) :
    ((busWrite off n v s).status = s.status ∧ (busWrite off n v s).cmdLast = s.cmdLast) ∨
    (off = 0x008 ∧ busWrite off n v s = s.writeStatus v) ∨
    (off = 0x00C ∧ s.seq = .idle ∧ busWrite off n v s = s.accept v) ∨
    (s.seq = .busy ∧ droppedOffset s.cfg off ∧ busWrite off n v s = s.dropWrite) := by
  rcases busWrite_cases off n v s with
    ⟨-, e⟩ | ⟨hoff, e⟩ | ⟨hoff, e⟩ | ⟨hoff, e⟩ | ⟨hlow, hfits, e⟩ | ⟨-, -, -, -, -, e⟩ <;> rw [e]
  · exact .inl ⟨rfl, rfl⟩
  · exact .inr (.inl ⟨hoff, rfl⟩)
  · cases hseq : s.seq with
    | idle => exact .inr (.inr (.inl ⟨hoff, rfl, writeCmd_idle v s hseq⟩))
    | busy => exact .inr (.inr (.inr ⟨rfl, .inl hoff, writeCmd_busy v s hseq⟩))
  · cases hseq : s.seq with
    | idle => exact .inl (by rw [writeInLen_idle v s hseq]; exact ⟨rfl, rfl⟩)
    | busy => exact .inr (.inr (.inr ⟨rfl, .inr (.inl hoff), writeInLen_busy v s hseq⟩))
  · cases hseq : s.seq with
    | idle => exact .inl (by rw [writeIn_idle _ _ s hseq]; exact ⟨rfl, rfl⟩)
    | busy =>
      have hpos := (sizeBytes_range n).1
      exact .inr (.inr (.inr ⟨rfl, .inr (.inr ⟨hlow, by omega⟩), writeIn_busy _ _ s hseq⟩))
  · exact .inl ⟨rfl, rfl⟩

/-- Everything a step that goes on can do to STATUS, SEQ and CMD_LAST. -/
theorem step_flag_cases {s t : State} (h : step s = .next t) :
    (t.status = s.status ∧ t.cmdLast = s.cmdLast) ∨
    (s.seq = .busy ∧ completion s.popTurn = .next t) ∨
    (∃ w, s.hostWrites 0x008 .word w ∧ t.status = s.status.writeOneClear w ∧ t.cmdLast = s.cmdLast) ∨
    (s.seq = .idle ∧ ∃ w, s.hostWrites 0x00C .word w ∧ t.status = s.status.accepted ∧ t.cmdLast = w ∧ t.pend = w ∧
      t.seq = .busy) ∨
    (s.seq = .busy ∧ (∃ off n w, s.hostWrites off n w ∧ droppedOffset s.cfg off) ∧ t.status = s.status.overrun ∧
      t.cmdLast = s.cmdLast) ∨
    t.AtReset := by
  rcases step_block_cases s t h with
    ⟨hseq, -, hcompletion⟩ | ⟨off, n, w, rest, hw, hok, rfl⟩ | hsame | ⟨hreset, -, -⟩ | rfl
  · exact .inr (.inl ⟨hseq, hcompletion⟩)
  · rcases busWrite_flag_cases off n w s.popTurn with
      ⟨hstatus, hcmd⟩ | ⟨rfl, e⟩ | ⟨rfl, hseq, e⟩ | ⟨hseq, hoff, e⟩
    · exact .inl ⟨hstatus, hcmd⟩
    · obtain rfl := word_of_register_access hok (by decide)
      exact .inr (.inr (.inl ⟨w, hw, by simp [e], by simp [e]⟩))
    · obtain rfl := word_of_register_access hok (by decide)
      exact .inr (.inr (.inr (.inl ⟨hseq, w, hw, by simp [e], by simp [e], by simp [e], by simp [e]⟩)))
    · exact .inr (.inr (.inr (.inr (.inl ⟨hseq, ⟨off, n, w, hw, hoff⟩, by simp [e], by simp [e]⟩))))
  · exact .inl ⟨hsame.status, hsame.cmdLast⟩
  · exact .inr (.inr (.inr (.inr (.inr hreset))))
  · exact .inl ⟨rfl, rfl⟩

/-- What every completion does to the flags and leaves of the registers: DONE set, OVR, CTRL and CMD_LAST kept
(40_sequencer.md R92). -/
theorem completion_flags {s t : State} (h : completion s = .next t) :
    t.status.done = true ∧ t.status.ovr = s.status.ovr ∧ t.ctrl = s.ctrl ∧ t.cmdLast = s.cmdLast := by
  obtain ⟨r, e, -⟩ := completion_cases s
  rw [e] at h
  cases h
  obtain ⟨-, -, hctrl, hstatus, hcmd, -⟩ := finish_frame r s
  exact ⟨by simp [hstatus], by simp [hstatus], hctrl, hcmd⟩

/-- In a configuration the spec admits, an aligned access that begins in IN_BUF ends in it (10_state.md R38). -/
theorem inBuf_access_fits {s : State} {off : Nat} {n : Size} (hcfg : s.cfg.wf = true) (hok : busError s off n = false)
    (hlow : 0x10000 ≤ off) (hhigh : off < 0x10000 + s.cfg.inCap) : off - 0x10000 + sizeBytes n ≤ s.cfg.inCap := by
  simp only [Config.wf, capOk, Bool.and_eq_true, decide_eq_true_eq] at hcfg
  obtain ⟨⟨⟨⟨⟨-, -, hcap⟩, -⟩, -⟩, -⟩, -⟩ := hcfg
  simp only [busError, Bool.or_eq_false_iff, decide_eq_false_iff_not, not_not] at hok
  obtain ⟨⟨halign, -⟩, -⟩ := hok
  cases n <;> simp only [sizeBytes] at halign ⊢ <;> omega

/-- While BUSY, a write to one of these offsets is dropped (R87, R89). -/
theorem busWrite_dropped {s : State} {off : Nat} {n : Size} (v : Word) (hseq : s.seq = .busy)
    (hcfg : s.cfg.wf = true) (hok : busError s off n = false) (hoff : droppedOffset s.cfg off) :
    busWrite off n v s = s.dropWrite := by
  rcases hoff with rfl | rfl | ⟨hlow, hhigh⟩
  · rw [busWrite_cmd, writeCmd_busy v s hseq]
  · rw [busWrite_inLen, writeInLen_busy v s hseq]
  · have hfits := inBuf_access_fits hcfg hok hlow hhigh
    rcases busWrite_cases off n v s with ⟨_, -⟩ | ⟨_, -⟩ | ⟨_, -⟩ | ⟨_, -⟩ | ⟨-, -, e⟩ | ⟨-, -, -, -, hno, -⟩
    · omega
    · omega
    · omega
    · omega
    · rw [e, writeIn_busy _ _ s hseq]
    · exact absurd ⟨hlow, hfits⟩ hno

/-- A write that ends OK, as the HOST sees it. -/
theorem hostWrite_of_ok {s : State} {off : Nat} {n : Size} (v : Word) (rest : List HostOp)
    (hok : busError s off n = false) :
    hostWrite off n v rest s = { busWrite off n v s with resp := some .written, script := rest } := by
  simp [hostWrite, hok]

/-! ### Register reads (20_memory.md R51, R55) -/

theorem lane_getLsbD (v : Word) (j k : Nat) (hk : k < 8) : (lane v j).getLsbD k = v.getLsbD (8 * j + k) := by
  simp [lane, hk]

/-- A word is the four lanes it is read by. -/
theorem lanes_lane (v : Word) : lanes ((List.range 4).map (lane v)) = v := by
  refine BitVec.eq_of_getLsbD_eq fun k hk => ?_
  have hlane : k / 8 < 4 := by omega
  rw [lanes_getLsbD _ k hk]
  simp only [List.getD_eq_getElem?_getD, List.getElem?_map, List.getElem?_range hlane, Option.map_some,
    Option.getD_some]
  rw [lane_getLsbD v _ _ (by omega), Nat.div_add_mod]

theorem byteAt_register (s : State) {off : Nat} (h : off < 0x100) :
    byteAt s off = lane (regWord s (off - off % 4)) (off % 4) := by
  simp [byteAt, h]

/-- A 32-bit read of a register offset returns the register. -/
theorem readData_register (s : State) {off : Nat} (halign : off % 4 = 0) (h : off < 0x100) :
    readData s off .word = regWord s off := by
  refine (congrArg lanes (List.map_congr_left fun j hj => ?_)).trans (lanes_lane (regWord s off))
  have hj : j < 4 := List.mem_range.mp hj
  have hmod : (off + j) % 4 = j := by omega
  rw [byteAt_register s (by omega), hmod, Nat.add_sub_cancel]

theorem ctrl_toWord_eq (c : Ctrl) : c.toWord = if c.ie then 1#32 else 0#32 := by
  obtain ⟨_ | _⟩ := c <;> rfl

/-- STATUS by its fields' bit places (10_state.md R22). -/
theorem status_toWord_eq (st : Status) :
    st.toWord =
      ((if st.busy then 1#32 else 0#32) ||| (if st.done then 2#32 else 0#32) ||| (if st.err then 4#32 else 0#32) |||
        (if st.ovr then 8#32 else 0#32) ||| (st.errcode.zeroExtend 32 <<< 8)) := by
  obtain ⟨busy, done, err, ovr, errcode⟩ := st
  revert busy done err ovr errcode
  decide

/-! ### The address map (R50) -/

theorem regWord_reserved (s : State) {off : Nat} (h : 0x2C ≤ off) : regWord s off = 0 := by
  unfold regWord
  split
  case h_12 => rfl
  all_goals omega

theorem byteAt_alpha0 (s : State) {d : Nat} (h : d < 0x40) : byteAt s (0x100 + d) = windowByte s.cfg.alpha0 d := by
  have hhigh : 0x100 + d < 0x140 := by omega
  simp [byteAt, hhigh]

theorem byteAt_alpha1 (s : State) {d : Nat} (h : d < 0x40) : byteAt s (0x140 + d) = windowByte s.cfg.alpha1 d := by
  have hlow : ¬ 0x140 + d < 0x100 := by omega
  have hmid : ¬ 0x140 + d < 0x140 := by omega
  have hhigh : 0x140 + d < 0x180 := by omega
  simp [byteAt, hlow, hhigh]

/-- Above the alphabet windows, an offset of neither buffer reads 0 (10_state.md R44). -/
theorem byteAt_outside_buffers (s : State) {off : Nat} (h : 0x180 ≤ off) (hin : inWindow s.cfg off = false)
    (hout : outWindow s.cfg off = false) : byteAt s off = 0#8 := by
  have hregs : ¬ off < 0x100 := by omega
  have halpha0 : ¬ off < 0x140 := by omega
  have halpha1 : ¬ off < 0x180 := by omega
  simp [byteAt, hregs, halpha0, halpha1, hin, hout]

end Sys2Proof.Machine
end

section
/-! SUPPORT. The statements on the registers, the flags, the interrupt line and the address map (10_state.md). -/

namespace Sys2Proof.Machine

/-! ### CMD, OVR, DONE and IRQ -/

/-- Settles O33: of all a step can do, only acceptance and reset touch CMD_LAST. -/
theorem cmdWritesAndCmdLast : Obligations.CmdWritesAndCmdLast := by
  have hok : ∀ s : State, s.rst = false → busError s 0x00C .word = false := fun s hrst => by
    simp [busError, hrst, sizeBytes]
  refine ⟨fun s w rest hrst hseq => ?_, fun s w rest hrst hseq => ?_, fun s t hstep hne => ?_,
    fun s => readData_register s rfl (by decide), rfl⟩
  · rw [hostWrite_of_ok w rest (hok s hrst), busWrite_cmd, writeCmd_idle w s hseq]
  · rw [hostWrite_of_ok w rest (hok s hrst), busWrite_cmd, writeCmd_busy w s hseq]
    rfl
  · rcases step_flag_cases hstep with
      ⟨-, hcmd⟩ | ⟨-, hcompletion⟩ | ⟨w, -, -, hcmd⟩ | ⟨hseq, w, hw, -, hcmd, hpend, hbusy⟩ | ⟨-, -, -, hcmd⟩ | hreset
    · exact absurd hcmd hne
    · obtain ⟨-, -, -, hcmd⟩ := completion_flags hcompletion
      exact absurd hcmd hne
    · exact absurd hcmd hne
    · exact .inl ⟨hseq, w, hw, hcmd, hpend, hbusy⟩
    · exact absurd hcmd hne
    · exact .inr hreset

/-- A flag that keeps its value neither rises nor falls. -/
theorem flag_unmoved {b c : Bool} {P Q : Prop} (h : c = b) :
    (b = false → c = true → P) ∧ (b = true → c = false → Q) := by
  subst h
  simp +contextual

/-- Settles O36: of all a step can do, only a dropped write raises OVR, and only a STATUS write and reset lower it. -/
theorem ovrSetOnlyByADroppedWrite : Obligations.OvrSetOnlyByADroppedWrite := by
  refine ⟨fun s off n v rest hseq hcfg hok hoff => ?_, fun s t hstep => ?_, fun _ _ => rfl, fun s t h => ?_⟩
  · rw [hostWrite_of_ok v rest hok, busWrite_dropped v hseq hcfg hok hoff]
    rfl
  · rcases step_flag_cases hstep with
      ⟨hstatus, -⟩ | ⟨-, hcompletion⟩ | ⟨w, hw, hstatus, -⟩ | ⟨-, w, -, hstatus, -⟩ | ⟨hseq, hdropped, hstatus, -⟩ |
      hreset
    · exact flag_unmoved (by rw [hstatus])
    · obtain ⟨-, hovr, -⟩ := completion_flags hcompletion
      exact flag_unmoved hovr
    · have hovr : t.status.ovr = (s.status.ovr && !w.getLsbD 3) := by simp [hstatus]
      exact ⟨by simp +contextual [hovr], fun hset hclear => .inl ⟨w, hw, by simpa [hovr, hset] using hclear⟩⟩
    · exact flag_unmoved (by simp [hstatus])
    · exact ⟨fun _ _ => ⟨hseq, hdropped⟩, by simp [hstatus]⟩
    · exact ⟨by simp [hreset.status], fun _ _ => .inr hreset⟩
  · obtain ⟨-, hovr, -⟩ := completion_flags h
    exact hovr

/-- Settles O37: of all a step can do, only a completion raises DONE, and only acceptance, a STATUS write and reset
lower it. -/
theorem doneSetOnlyByCompletion : Obligations.DoneSetOnlyByCompletion := by
  refine ⟨fun s t h => (completion_flags h).1, fun _ _ => rfl, fun s n v hv => ?_, fun s t hstep => ?_⟩
  · simp [busWrite_status, hv]
  · refine and_assoc.mp ⟨?_, fun hreset => by rw [hreset.status]⟩
    rcases step_flag_cases hstep with
      ⟨hstatus, -⟩ | ⟨hseq, hcompletion⟩ | ⟨w, hw, hstatus, -⟩ | ⟨hseq, w, hw, hstatus, -⟩ | ⟨-, -, hstatus, -⟩ | hreset
    · exact flag_unmoved (by simp [hstatus])
    · obtain ⟨hdone, -⟩ := completion_flags hcompletion
      exact ⟨fun _ _ => ⟨hseq, hcompletion⟩, by simp [hdone]⟩
    · have hdone : t.status.done = (s.status.done && !w.getLsbD 1) := by simp [hstatus]
      exact ⟨by simp +contextual [hdone],
        fun hset hclear => .inr (.inl ⟨w, hw, by simpa [hdone, hset] using hclear⟩)⟩
    · exact ⟨by simp [hstatus], fun _ _ => .inl ⟨hseq, w, hw⟩⟩
    · exact flag_unmoved (by simp [hstatus])
    · exact ⟨by simp [hreset.status], fun _ _ => .inr (.inr hreset)⟩

theorem irq_eq_true_iff (s : State) : s.irq = true ↔ s.ctrl.ie = true ∧ s.status.done = true := by
  simp [State.irq]

theorem irq_of_not_done {s : State} (h : s.status.done = false) : s.irq = false := by
  simp [State.irq, h]

theorem irq_of_not_enabled {s : State} (h : s.ctrl.ie = false) : s.irq = false := by
  simp [State.irq, h]

/-- Settles O48: each event that lowers IRQ clears DONE or IE. -/
theorem irqFollowsDoneAndEnable : Obligations.IrqFollowsDoneAndEnable := by
  refine fun s => ⟨irq_eq_true_iff s, fun t h => ?_, fun _ => irq_of_not_done rfl,
    fun v hv => irq_of_not_done (by simp [hv]), fun v hv => irq_of_not_enabled hv,
    fun hreset => irq_of_not_done (by rw [hreset.status])⟩
  obtain ⟨hdone, -, hctrl, -⟩ := completion_flags h
  simp [State.irq, hdone, hctrl]

/-! ### Registers -/

/-- Settles O41: a read returns the register's word, which for CTRL and STATUS is spelled by its fields. -/
theorem registerReads : Obligations.RegisterReads := by
  intro s
  have hread : ∀ off, off % 4 = 0 ∧ off < 0x100 → readData s off .word = regWord s off :=
    fun off ⟨halign, hlow⟩ => readData_register s halign hlow
  have hctrl := (hread 0x004 (by decide)).trans (ctrl_toWord_eq s.ctrl)
  have hstatus := (hread 0x008 (by decide)).trans (status_toWord_eq s.status)
  exact ⟨hread 0x000 (by decide), hctrl, hstatus, hread 0x00C (by decide), hread 0x010 (by decide),
    hread 0x014 (by decide), hread 0x018 (by decide), hread 0x01C (by decide), hread 0x020 (by decide),
    hread 0x024 (by decide), hread 0x028 (by decide)⟩

/-- The clearing of a STATUS write as a choice by its bits 1 and 3 (10_state.md R22). -/
theorem writeOneClear_eq (st : Status) (v : Word) :
    st.writeOneClear v =
      { st with
        done := if v.getLsbD 1 then false else st.done
        ovr := if v.getLsbD 3 then false else st.ovr } := by
  have hclear : ∀ flag bit : Bool, (flag && !bit) = if bit then false else flag := by decide
  simp only [Status.writeOneClear, hclear]

/-- Settles O42: the three writes are the block's operations of those names. -/
theorem registerWrites : Obligations.RegisterWrites := fun s v =>
  ⟨rfl, by rw [busWrite_status, State.writeStatus, writeOneClear_eq], writeInLen_idle v s⟩

/-! ### The alphabet windows and the reserved offsets -/

theorem windowByte_digit (table : List Byte) {d : Nat} (h : d < 58) : windowByte table d = charOf table d := by
  simp [windowByte, h]

theorem windowByte_reserved (table : List Byte) {d : Nat} (h : 58 ≤ d) : windowByte table d = 0#8 := by
  simp [windowByte, h]

/-- Settles O44: the first 58 bytes of a window are the table. -/
theorem alphabetWindowReads : Obligations.AlphabetWindowReads := fun s d h =>
  ⟨(byteAt_alpha0 s (by omega)).trans (windowByte_digit _ h), (byteAt_alpha1 s (by omega)).trans (windowByte_digit _ h)⟩

/-- The register offsets from 0x2C on read 0 (10_state.md R44). -/
theorem byteAt_reserved_register (s : State) {off : Nat} (hlow : 0x2C ≤ off) (hhigh : off < 0x100) :
    byteAt s off = 0#8 := by
  rw [byteAt_register s hhigh, regWord_reserved s (by omega)]
  simp [lane]

theorem inCap_le {c : Config} (h : c.wf = true) : c.inCap ≤ 0x10000 := by
  simp only [Config.wf, capOk, Bool.and_eq_true, decide_eq_true_eq] at h
  omega

/-- A write that ends OK to a reserved or read-only offset does nothing (R45). -/
theorem busWrite_ignored {s : State} {off : Nat} (n : Size) (v : Word)
    (hoff : off = 0x000 ∨ (0x014 ≤ off ∧ off < 0x10000) ∨ 0x10000 + s.cfg.inCap ≤ off) : busWrite off n v s = s := by
  have hpos := (sizeBytes_range n).1
  rcases busWrite_cases off n v s with
    ⟨_, -⟩ | ⟨_, -⟩ | ⟨_, -⟩ | ⟨_, -⟩ | ⟨_, _, -⟩ | ⟨-, -, -, -, -, e⟩
  · omega
  · omega
  · omega
  · omega
  · omega
  · exact e

/-- Settles O43: by the range the offset lies in. -/
theorem reservedAndReadOnlyOffsets : Obligations.ReservedAndReadOnlyOffsets := by
  refine fun s off hcfg => ⟨fun hoff => ?_, fun n v _ hoff => busWrite_ignored n v hoff⟩
  have hin := inCap_le hcfg
  rcases hoff with ⟨hlow, hhigh⟩ | ⟨hlow, hhigh⟩ | ⟨hlow, hhigh⟩ | hlow | ⟨hlow, hhigh⟩ | ⟨hlow, hhigh⟩
  · exact byteAt_reserved_register s hlow hhigh
  · exact byteAt_outside_buffers s hlow (decide_eq_false (by omega)) (decide_eq_false (by omega))
  · exact byteAt_outside_buffers s (by omega) (decide_eq_false (by omega)) (decide_eq_false (by omega))
  · exact byteAt_outside_buffers s (by omega) (decide_eq_false (by omega)) (decide_eq_false (by omega))
  · obtain ⟨d, rfl⟩ := Nat.exists_eq_add_of_le (show 0x100 ≤ off by omega)
    rw [byteAt_alpha0 s (by omega), windowByte_reserved _ (by omega)]
  · obtain ⟨d, rfl⟩ := Nat.exists_eq_add_of_le (show 0x140 ≤ off by omega)
    rw [byteAt_alpha1 s (by omega), windowByte_reserved _ (by omega)]

end Sys2Proof.Machine
end

section
/-! SUPPORT. The inverse map of an alphabet (10_state.md R36), and the built-in tables (R35). -/

namespace Sys2Proof.Machine

theorem charOf_eq_getElem {table : List Byte} {d : Nat} (h : d < table.length) : charOf table d = table[d] :=
  List.getD_eq_getElem table 0#8 h

/-- The search stops at the first place of a character, which in a table without duplicates is its only one. -/
theorem inv_eq_some_iff {table : List Byte} (hnodup : table.Nodup) (c : Byte) (d : Nat) :
    inv table c = some d ↔ d < table.length ∧ charOf table d = c := by
  rw [inv, List.findIdx?_eq_some_iff_getElem]
  constructor
  · rintro ⟨hd, hc, -⟩
    exact ⟨hd, (charOf_eq_getElem hd).trans (eq_of_beq hc)⟩
  · rintro ⟨hd, rfl⟩
    refine ⟨hd, beq_iff_eq.mpr (charOf_eq_getElem hd).symm, fun j hj hc => ?_⟩
    rw [charOf_eq_getElem hd, beq_iff_eq, hnodup.getElem_inj_iff] at hc
    omega

theorem inv_eq_none_iff (table : List Byte) (c : Byte) : inv table c = none ↔ c ∉ table := by
  rw [inv, List.findIdx?_eq_none_iff]
  exact ⟨fun h hc => absurd (h c hc) (by simp), fun h x hx => beq_eq_false_iff_ne.mpr (ne_of_mem_of_not_mem hx h)⟩

/-- Settles O19: there is no digit exactly when no digit is one. -/
theorem inverseMapInvertsTheTable : Obligations.InverseMapInvertsTheTable := by
  intro table c htable
  obtain ⟨hlen, hnodup⟩ := of_decide_eq_true htable
  have hsome : ∀ d, inv table c = some d ↔ d < 58 ∧ charOf table d = c := fun d =>
    hlen ▸ inv_eq_some_iff hnodup c d
  refine ⟨hsome, Option.eq_none_iff_forall_ne_some.trans (forall_congr' fun d => ?_)⟩
  rw [ne_eq, hsome d, not_and]

/-- A run of character codes holds the codes of its range. -/
theorem mem_chars_iff {lo k : Nat} (h : lo + k ≤ 0x100) (c : Byte) :
    c ∈ chars lo k ↔ lo ≤ c.toNat ∧ c.toNat < lo + k := by
  simp only [chars, List.mem_map, List.mem_range'_1]
  constructor
  · rintro ⟨n, hn, rfl⟩
    rw [BitVec.toNat_ofNat, Nat.mod_eq_of_lt (by omega)]
    exact hn
  · intro hc
    exact ⟨c.toNat, hc, by simp⟩

/-- The characters of the Bitcoin-style table, by the byte ranges of R35. -/
theorem mem_alphaBitcoin_iff (c : Byte) :
    c ∈ alphaBitcoin ↔
      (0x31 ≤ c.toNat ∧ c.toNat < 0x3A) ∨ (0x41 ≤ c.toNat ∧ c.toNat < 0x49) ∨ (0x4A ≤ c.toNat ∧ c.toNat < 0x4F) ∨
      (0x50 ≤ c.toNat ∧ c.toNat < 0x5B) ∨ (0x61 ≤ c.toNat ∧ c.toNat < 0x6C) ∨
      (0x6D ≤ c.toNat ∧ c.toNat < 0x7B) := by
  simp [alphaBitcoin, mem_chars_iff]

/-- The Flickr-style table has the same ranges in another order. -/
theorem mem_alphaFlickr_iff (c : Byte) : c ∈ alphaFlickr ↔ c ∈ alphaBitcoin := by
  simp only [alphaBitcoin, alphaFlickr, List.mem_append]
  tauto

theorem builtIn_alphaOk : alphaOk alphaBitcoin = true ∧ alphaOk alphaFlickr = true := by
  have h := referenceConfig_wf
  simp only [Config.wf, Bool.and_eq_true] at h
  obtain ⟨⟨-, h0⟩, h1⟩ := h
  exact ⟨h0, h1⟩

/-- Settles O27: a byte is in a table exactly when it lies in one of the ranges of R35. -/
theorem builtInAlphabets : Obligations.BuiltInAlphabets := by
  obtain ⟨hbitcoin, hflickr⟩ := builtIn_alphaOk
  refine ⟨hbitcoin, hflickr, rfl, rfl, ?_, fun c hc => ?_, fun c => ?_⟩
  · simp [inv_eq_none_iff, mem_alphaFlickr_iff, mem_alphaBitcoin_iff]
  · rw [inv_eq_none_iff, mem_alphaBitcoin_iff]
    omega
  · rw [inv_eq_none_iff, inv_eq_none_iff, mem_alphaFlickr_iff]

end Sys2Proof.Machine
end

section
/-! SUPPORT. The statements on the bus (20_memory.md): the address window, the byte lanes, the responses, what a read
leaves, what a write to IN_BUF changes, and when the inputs of a command can change. -/

namespace Sys2Proof.Machine

/-! ### The address window (R49) -/

theorem blockOffset_sysAddr (c : Config) {off : Nat} (h : off < 0x30000) :
    blockOffset c (sysAddr c off) = some off := by
  simp [blockOffset, sysAddr, h]

theorem blockOffset_outside {c : Config} {addr : Nat} (h : addr < c.blockBase ∨ c.blockBase + 0x30000 ≤ addr) :
    blockOffset c addr = none :=
  if_neg (by omega)

/-- Settles O47: outside the window there is no block offset, so the HOST's turn has nothing to reach. -/
theorem windowDecode : Obligations.WindowDecode := by
  refine fun s => ⟨fun off h => blockOffset_sysAddr s.cfg h, fun op rest hrunning hscript hout => ?_⟩
  simp [hostStep, hrunning, hscript, blockOffset_outside hout]

/-! ### The byte lanes (R51) -/

/-- The data of consecutive bytes holds byte j in lane j, and 0 past the last. -/
theorem lane_lanes (bs : List Byte) {j : Nat} (h : j < 4) : lane (lanes bs) j = bs.getD j 0#8 := by
  refine BitVec.eq_of_getLsbD_eq fun k hk => ?_
  have hdiv : (8 * j + k) / 8 = j := by omega
  have hmod : (8 * j + k) % 8 = k := by omega
  rw [lane_getLsbD _ _ _ hk, lanes_getLsbD _ _ (by omega), hdiv, hmod]

/-- The data of consecutive bytes has no bits past their lanes. -/
theorem lanes_lt (bs : List Byte) : (lanes bs).toNat < 2 ^ (8 * bs.length) := by
  refine Nat.lt_pow_two_of_testBit _ fun k hk => ?_
  rw [← BitVec.getLsbD]
  by_cases h : k < 32
  · rw [lanes_getLsbD bs k h, List.getD_eq_default _ _ (by omega)]
    simp
  · exact BitVec.getLsbD_of_ge _ k (by omega)

theorem writeLanes_getElem? {n : Size} (v : Word) {j : Nat} (h : j < sizeBytes n) :
    (writeLanes n v)[j]? = some (lane v j) := by
  simp [writeLanes, h]

theorem lane_readData (s : State) (off : Nat) {n : Size} {j : Nat} (h : j < sizeBytes n) :
    lane (readData s off n) j = byteAt s (off + j) := by
  rw [readData, lane_lanes _ (h.trans_le (sizeBytes_range n).2)]
  simp [h]

theorem readData_lt (s : State) (off : Nat) (n : Size) : (readData s off n).toNat < 2 ^ (8 * sizeBytes n) := by
  simpa [readData] using lanes_lt ((List.range (sizeBytes n)).map fun j => byteAt s (off + j))

/-- Settles O39: a read's data and a write's bytes are both spelled by `lane`. -/
theorem byteLanesAreLittleEndian : Obligations.ByteLanesAreLittleEndian := fun s off n =>
  ⟨fun _ h => lane_readData s off h, readData_lt s off n, fun v _ h => writeLanes_getElem? v h⟩

/-! ### The responses (R53, R55, R56) -/

theorem sizeBytes_eq_four_iff (n : Size) : sizeBytes n = 4 ↔ n = .word := by
  cases n <;> decide

theorem busError_iff (s : State) (off : Nat) (n : Size) :
    busError s off n = true ↔ off % sizeBytes n ≠ 0 ∨ (off < 0x100 ∧ sizeBytes n ≠ 4) ∨ s.rst = true := by
  simp [busError, sizeBytes_eq_four_iff, or_assoc]

theorem hostError_resp (rest : List HostOp) (s : State) : (s.hostError rest).resp = some .error := by
  rcases hostError_cases rest s with ⟨-, e⟩ | ⟨-, e, -⟩ <;> rw [e]

theorem hostError_vals (rest : List HostOp) (s : State) : (s.hostError rest).vals = s.vals := by
  rcases hostError_cases rest s with ⟨-, e⟩ | ⟨-, e, -⟩ <;> rw [e]

/-- A forgotten name has no value. -/
theorem forget_lookup (x : Nat) (s : State) : (s.forget x).vals.lookup x = none := by
  simp only [State.forget, List.lookup_eq_none_iff, List.mem_filter, bne_iff_ne]
  exact fun _ hp => hp.2.symm

/-- A write that ends with ERROR, as the HOST sees it. -/
theorem hostWrite_of_error {s : State} {off : Nat} {n : Size} (v : Word) (rest : List HostOp)
    (h : busError s off n = true) : hostWrite off n v rest s = s.hostError rest := by
  simp [hostWrite, h]

/-- A named read that ends with ERROR returned no data. -/
theorem hostRead_of_error {s : State} {off : Nat} {n : Size} (x : Nat) (rest : List HostOp)
    (h : busError s off n = true) : hostRead off n x rest s = (s.forget x).hostError rest := by
  simp [hostRead, h]

/-- A POLL whose read ended with ERROR is still to do. -/
theorem hostPoll_of_error {s : State} {off : Nat} (m v : Word) (again rest : List HostOp)
    (h : busError s off .word = true) : hostPoll off m v again rest s = s.hostError again := by
  simp [hostPoll, h]

/-- A read changes nothing in the block (R58). -/
theorem sameBlock_hostRead (off : Nat) (n : Size) (x : Nat) (rest : List HostOp) (s : State) :
    s.SameBlock (hostRead off n x rest s) :=
  (hostRead_sameBlock off n x rest s).of_draws

theorem sameBlock_hostPoll (off : Nat) (m v : Word) (again rest : List HostOp) (s : State) :
    s.SameBlock (hostPoll off m v again rest s) :=
  (hostPoll_sameBlock off m v again rest s).of_draws

/-- Settles O40: an ERROR is `hostError`, which leaves the block alone, and an OK response carries a read's data. -/
theorem busErrorExactly : Obligations.BusErrorExactly := by
  refine fun s off n => ⟨busError_iff s off n, fun herr => ⟨fun v rest => ?_, fun x rest => ?_⟩,
    fun hok => ⟨fun v rest => ?_, fun x rest => ?_⟩,
    fun m v again rest => ⟨sameBlock_hostPoll off m v again rest s, fun herr => ?_, fun hok => ?_⟩⟩
  · rw [hostWrite_of_error v rest herr]
    exact ⟨hostError_sameBlock rest s, hostError_resp rest s⟩
  · refine ⟨sameBlock_hostRead off n x rest s, ?_⟩
    rw [hostRead_of_error x rest herr, hostError_vals]
    exact ⟨hostError_resp rest _, forget_lookup x s⟩
  · rw [hostWrite_of_ok v rest hok]
  · simp [hostRead, hok]
  · rw [hostPoll_of_error m v again rest herr]
    exact ⟨hostError_resp again s, hostError_vals again s⟩
  · simp [hostPoll, hok]

/-! ### Reads have no side effect (R58) -/

theorem regWord_of_sameBlock {s t : State} (h : s.SameBlock t) (off : Nat) : regWord t off = regWord s off := by
  simp only [regWord, h.cfg, h.ctrl, h.status, h.cmdLast, h.inLen, h.outLen, h.lzCount, h.errByte, h.errIndex]

/-- What an offset reads is fixed by the block's own state, except OUT_BUF while BUSY (40_sequencer.md R95). -/
theorem byteAt_of_sameBlock {s t : State} (h : s.SameBlock t) {o : Nat}
    (ho : outWindow s.cfg o = false ∨ s.status.busy = false) : byteAt t o = byteAt s o := by
  simp only [byteAt, regWord_of_sameBlock h, inByte_congr h.inBuf h.inBatch, outByte_congr h.outBuf h.outBatch, h.cfg,
    h.status]
  rcases ho with ho | ho <;> simp [ho]

/-- Above the alphabet windows an offset reads one of the buffers, or 0 (R50). -/
theorem byteAt_buffers (s : State) {o : Nat} (h : 0x180 ≤ o) :
    byteAt s o =
      if inWindow s.cfg o then s.inByte (o - 0x10000)
      else if outWindow s.cfg o then
        (if s.status.busy then Config.freeByte s.draws (o - 0x20000) else s.outByte (o - 0x20000))
      else 0 := by
  have hregs : ¬ o < 0x100 := by omega
  have halpha0 : ¬ o < 0x140 := by omega
  have halpha1 : ¬ o < 0x180 := by omega
  simp [byteAt, hregs, halpha0, halpha1]

theorem byteAt_inBuf {s : State} {o : Nat} (h : inWindow s.cfg o = true) : byteAt s o = s.inByte (o - 0x10000) := by
  have hlow := (of_decide_eq_true h).1
  simp [byteAt_buffers s (by omega : 0x180 ≤ o), h]

/-- While BUSY, OUT_BUF reads as the next unused batch of draws (40_sequencer.md R95). -/
theorem byteAt_outBuf_busy {s : State} {o : Nat} (hcfg : s.cfg.wf = true) (hbusy : s.status.busy = true)
    (h : outWindow s.cfg o = true) : byteAt s o = Config.freeByte s.draws (o - 0x20000) := by
  have hlow := (of_decide_eq_true h).1
  have hcap := inCap_le hcfg
  have hin : inWindow s.cfg o = false := decide_eq_false (by omega)
  simp [byteAt_buffers s (by omega : 0x180 ≤ o), hin, h, hbusy]

/-- Settles O46: a read keeps the block, and all but OUT_BUF while BUSY is read from the block. -/
theorem readsHaveNoSideEffect : Obligations.ReadsHaveNoSideEffect := by
  intro s off n x m v rest again
  have hread := sameBlock_hostRead off n x rest s
  have hpoll := sameBlock_hostPoll off m v again rest s
  refine ⟨⟨hread, hpoll⟩, fun o ho => ⟨byteAt_of_sameBlock hread ho, byteAt_of_sameBlock hpoll ho⟩,
    fun hcfg hbusy hout hok => ⟨byteAt_outBuf_busy hcfg hbusy hout, ?_⟩⟩
  rw [hostRead_draws_of_ok x rest hok, afterRead_draws_of_busy hbusy hout]

/-! ### A write to IN_BUF (R56, R60) -/

/-- While IDLE, a write that begins in IN_BUF sets its lanes there and touches nothing else. -/
theorem busWrite_inBuf_idle {s : State} {off : Nat} {n : Size} (v : Word) (hseq : s.seq = .idle)
    (hcfg : s.cfg.wf = true) (hok : busError s off n = false) (hlow : 0x10000 ≤ off)
    (hhigh : off < 0x10000 + s.cfg.inCap) :
    busWrite off n v s = { s with inBuf := s.inBuf.setBytes (off - 0x10000) (writeLanes n v) } := by
  have hfits := inBuf_access_fits hcfg hok hlow hhigh
  rcases busWrite_cases off n v s with ⟨_, -⟩ | ⟨_, -⟩ | ⟨_, -⟩ | ⟨_, -⟩ | ⟨-, -, e⟩ | ⟨-, -, -, -, hno, -⟩
  · omega
  · omega
  · omega
  · omega
  · rw [e, writeIn_idle _ _ s hseq]
  · exact absurd ⟨hlow, hfits⟩ hno

/-- A change of IN_BUF's cells shows only at the offsets of the cells that changed. -/
theorem byteAt_with_inBuf {s : State} {mem : Memory} {o : Nat}
    (h : inWindow s.cfg o = true → mem.get (o - 0x10000) = s.inBuf.get (o - 0x10000)) :
    byteAt { s with inBuf := mem } o = byteAt s o := by
  by_cases hin : inWindow s.cfg o = true
  · rw [byteAt_inBuf hin, byteAt_inBuf (s := { s with inBuf := mem }) hin]
    simp [State.inByte, h hin]
  · have hregs : regWord { s with inBuf := mem } = regWord s := rfl
    have hout : State.outByte { s with inBuf := mem } = s.outByte := rfl
    simp [byteAt, hin, hregs, hout]

/-- A byte written to IN_BUF reads back at its offset. -/
theorem byteAt_written {s : State} {off : Nat} {n : Size} {j : Nat} (v : Word) (hlow : 0x10000 ≤ off)
    (hfits : off - 0x10000 + sizeBytes n ≤ s.cfg.inCap) (hj : j < sizeBytes n) :
    byteAt { s with inBuf := s.inBuf.setBytes (off - 0x10000) (writeLanes n v) } (off + j) = lane v j := by
  have hcell : off + j - 0x10000 - (off - 0x10000) = j := by omega
  have hrange : off - 0x10000 ≤ off + j - 0x10000 ∧ off + j - 0x10000 < off - 0x10000 + sizeBytes n := by omega
  rw [byteAt_inBuf (decide_eq_true (by dsimp only; omega))]
  simp [State.inByte, Memory.get_setBytes, hrange, hcell, writeLanes_getElem? v hj]

/-- Settles O45: the write is one of consecutive cells, and a read finds each in the lane it was written by. -/
theorem inBufWriteChangesOnlyItsBytes : Obligations.InBufWriteChangesOnlyItsBytes := by
  rintro s t off n v hseq hcfg hok hlow hhigh rfl
  have hfits := inBuf_access_fits hcfg hok hlow hhigh
  rw [busWrite_inBuf_idle v hseq hcfg hok hlow hhigh]
  refine ⟨fun j hj => byteAt_written v hlow hfits hj, fun o ho => byteAt_with_inBuf fun hin => ?_,
    fun o n' j hj hfrom hto => ?_, by constructor <;> rfl⟩
  · have hin := of_decide_eq_true hin
    rw [Memory.get_setBytes, if_neg (by rw [writeLanes_length]; omega)]
  · obtain ⟨i, hi⟩ := Nat.exists_eq_add_of_le hfrom
    rw [hi, Nat.add_sub_cancel_left]
    exact (lane_readData _ o hj).trans (hi ▸ byteAt_written v hlow hfits (by omega))

/-! ### The inputs of a command (R64) -/

theorem seq_idle_or_busy (s : State) : s.seq = .idle ∨ s.seq = .busy := by
  cases s.seq <;> simp

/-- What a write that ends OK can do to IN_LEN and IN_BUF: nothing, or, while IDLE, set the one it names. -/
theorem busWrite_input_cases (off : Nat) (n : Size) (v : Word) (s : State) :
    ((busWrite off n v s).inLen = s.inLen ∧ (busWrite off n v s).inBuf = s.inBuf) ∨
    (off = 0x010 ∧ s.seq = .idle ∧ busWrite off n v s = { s with inLen := v }) ∨
    (0x10000 ≤ off ∧ off < 0x10000 + s.cfg.inCap ∧ s.seq = .idle ∧
      ∃ mem, busWrite off n v s = { s with inBuf := mem }) := by
  rcases busWrite_cases off n v s with
    ⟨-, e⟩ | ⟨-, e⟩ | ⟨-, e⟩ | ⟨hoff, e⟩ | ⟨hlow, hfits, e⟩ | ⟨-, -, -, -, -, e⟩ <;> rw [e]
  · exact .inl ⟨rfl, rfl⟩
  · exact .inl ⟨rfl, rfl⟩
  · rcases seq_idle_or_busy s with hseq | hseq
    · simp [writeCmd_idle v s hseq]
    · simp [writeCmd_busy v s hseq]
  · rcases seq_idle_or_busy s with hseq | hseq
    · exact .inr (.inl ⟨hoff, hseq, writeInLen_idle v s hseq⟩)
    · simp [writeInLen_busy v s hseq]
  · rcases seq_idle_or_busy s with hseq | hseq
    · have hpos := (sizeBytes_range n).1
      exact .inr (.inr ⟨hlow, by omega, hseq, _, writeIn_idle _ _ s hseq⟩)
    · simp [writeIn_busy _ _ s hseq]
  · exact .inl ⟨rfl, rfl⟩

/-- Settles O38: of all a step can do, only a write while IDLE and reset touch the inputs. -/
theorem inputsChangeOnlyWhileIdle : Obligations.InputsChangeOnlyWhileIdle := by
  intro s t hstep hne
  have hmoved : ¬ (t.inLen = s.inLen ∧ t.inBuf = s.inBuf ∧ t.inBatch = s.inBatch) := by tauto
  rcases step_block_cases s t hstep with
    ⟨-, -, hcompletion⟩ | ⟨off, n, w, rest, hw, hok, rfl⟩ | hsame | ⟨hreset, hrst, -⟩ | rfl
  · obtain ⟨r, e, -⟩ := completion_cases s.popTurn
    rw [e] at hcompletion
    cases hcompletion
    obtain ⟨-, -, -, -, -, hlen, hbuf, hbatch, -⟩ := finish_frame r s.popTurn
    exact absurd ⟨hlen, hbuf, hbatch⟩ hmoved
  · obtain ⟨-, -, hbatch, -⟩ := busWrite_frame off n w s.popTurn
    rcases busWrite_input_cases off n w s.popTurn with
      ⟨hlen, hbuf⟩ | ⟨rfl, hseq, e⟩ | ⟨hlow, hhigh, hseq, mem, e⟩
    · exact absurd ⟨hlen, hbuf, hbatch⟩ hmoved
    · obtain rfl := word_of_register_access hok (by decide)
      rw [e]
      exact .inl ⟨hseq, hseq, rfl, .inl ⟨w, hw, rfl, rfl⟩⟩
    · rw [e]
      exact .inl ⟨hseq, hseq, rfl, .inr ⟨off, n, w, hw, hlow, hhigh, rfl⟩⟩
  · exact absurd ⟨hsame.inLen, hsame.inBuf, hsame.inBatch⟩ hmoved
  · exact .inr ⟨hreset, hrst⟩
  · exact absurd ⟨rfl, rfl, rfl⟩ hmoved

end Sys2Proof.Machine
end

section
/-! SUPPORT. The decoder read backwards: a word is legal exactly when it is a command's encoding (30_encoding.md R73 to
R78), and the statements on the encoding (R77, R84). -/

namespace Sys2Proof

/-! ### The decoder and the encoder (R73 to R77) -/

theorem aselOf_eq_some_iff (f : BitVec 4) (a : Asel) : aselOf f = some a ↔ f = aselBits a := by
  revert f
  cases a <;> decide

theorem withAsel_eq_instr_iff (f : BitVec 4) (mk : Asel → Instr) (i : Instr) :
    withAsel f mk = .instr i ↔ ∃ a, f = aselBits a ∧ mk a = i := by
  simp only [← aselOf_eq_some_iff]
  unfold withAsel
  split <;> simp_all

/-- A word that decodes to a command has the command's fields (R77). -/
theorem fields_of_decodeWord {w : Word} {i : Instr} (h : decodeWord w = .instr i) :
    rsvdField w = 0 ∧ opField w = opBits i ∧ aselField w = aselFieldOf i := by
  unfold decodeWord at h
  split_ifs at h with hrsvd hop hasel hop hop
  · cases h
    exact ⟨not_not.mp hrsvd, hop, hasel⟩
  · obtain ⟨a, hasel, rfl⟩ := (withAsel_eq_instr_iff _ _ _).mp h
    exact ⟨not_not.mp hrsvd, hop, hasel⟩
  · obtain ⟨a, hasel, rfl⟩ := (withAsel_eq_instr_iff _ _ _).mp h
    exact ⟨not_not.mp hrsvd, hop, hasel⟩

theorem decodeWord_encode (i : Instr) : decodeWord (encode i) = .instr i := by
  rcases i with _ | a | a
  · decide
  · cases a <;> decide
  · cases a <;> decide

theorem encode_fields (i : Instr) :
    rsvdField (encode i) = 0 ∧ opField (encode i) = opBits i ∧ aselField (encode i) = aselFieldOf i := by
  cases i with
  | nop => exact Laws.Fields.nop
  | encode a => exact Laws.Fields.encode a
  | decode a => exact Laws.Fields.decode a

/-- A word is determined by its three fields. -/
theorem word_ext_fields {v w : Word} (hrsvd : rsvdField v = rsvdField w) (hop : opField v = opField w)
    (hasel : aselField v = aselField w) : v = w :=
  BitVec.eq_of_toNat_eq (by rw [word_of_fields v, word_of_fields w, hrsvd, hop, hasel])

/-- The legal words are the encodings of the commands (R77). -/
theorem decodeWord_eq_instr_iff (w : Word) (i : Instr) : decodeWord w = .instr i ↔ w = encode i := by
  constructor
  · intro h
    obtain ⟨hrsvd, hop, hasel⟩ := fields_of_decodeWord h
    obtain ⟨hrsvd', hop', hasel'⟩ := encode_fields i
    exact word_ext_fields (hrsvd.trans hrsvd'.symm) (hop.trans hop'.symm) (hasel.trans hasel'.symm)
  · rintro rfl
    exact decodeWord_encode i

/-- The illegal words are all the others (R77, R78). -/
theorem decodeWord_illegal_iff (w : Word) : (∃ r, decodeWord w = .illegal r) ↔ ∀ i, w ≠ encode i := by
  simp only [ne_eq, ← decodeWord_eq_instr_iff]
  cases decodeWord w <;> simp

/-- Settles O1: one word for each alphabet of each operation. -/
theorem encodedWordDecodesToItsCommand : Obligations.EncodedWordDecodesToItsCommand :=
  decodeWord_encode

/-- R77's list holds every command's encoding. -/
theorem ne_encode_of_not_listed {w : Word}
    (h : w ∉ [0x00000000#32, 0x00000001#32, 0x00000011#32, 0x00000002#32, 0x00000012#32]) (i : Instr) :
    w ≠ encode i := by
  rintro rfl
  revert h
  rcases i with _ | a | a
  · decide
  · cases a <;> decide
  · cases a <;> decide

/-- Settles O2: the five words are the encodings of the five commands. -/
theorem exactlyFiveWordsAreLegal : Obligations.ExactlyFiveWordsAreLegal :=
  ⟨decodeWord_encode .nop, decodeWord_encode (.encode .a0), decodeWord_encode (.encode .a1),
    decodeWord_encode (.decode .a0), decodeWord_encode (.decode .a1),
    fun w hw => (decodeWord_illegal_iff w).mpr (ne_encode_of_not_listed hw)⟩

/-! ### The opcode table's rows (R84) -/

/-- A word is what it shows under the conversions' mask, and its bit 4. -/
theorem word_eq_iff_masked (w v : Word) :
    w = v ↔ w &&& 0xFFFFFFEF#32 = v &&& 0xFFFFFFEF#32 ∧ w.getLsbD 4 = v.getLsbD 4 := by
  have hmask : ∀ k < 32, (0xFFFFFFEF#32).getLsbD k = decide (k ≠ 4) := by decide
  refine ⟨by rintro rfl; exact ⟨rfl, rfl⟩, fun ⟨hmasked, hbit⟩ => BitVec.eq_of_getLsbD_eq fun k hk => ?_⟩
  by_cases h4 : k = 4
  · rw [h4, hbit]
  · simpa [hmask k hk, h4] using congrArg (fun x : Word => x.getLsbD k) hmasked

/-- The row of ENCODE: its match under its mask, and A = w[4]. -/
theorem eq_encode_encode_iff (w : Word) (a : Asel) :
    w = encode (.encode a) ↔ w &&& 0xFFFFFFEF#32 = 0x00000001#32 ∧ (w.getLsbD 4 = true ↔ a = .a1) := by
  rw [word_eq_iff_masked]
  cases a <;> simp [encode, aselFieldOf, opBits, aselBits]

/-- The row of DECODE. -/
theorem eq_encode_decode_iff (w : Word) (a : Asel) :
    w = encode (.decode a) ↔ w &&& 0xFFFFFFEF#32 = 0x00000002#32 ∧ (w.getLsbD 4 = true ↔ a = .a1) := by
  rw [word_eq_iff_masked]
  cases a <;> simp [encode, aselFieldOf, opBits, aselBits]

/-- The row of NOP, whose mask is every bit. -/
theorem eq_encode_nop_iff (w : Word) : w = encode .nop ↔ w &&& 0xFFFFFFFF#32 = 0x00000000#32 := by
  have hmask : 0xFFFFFFFF#32 = BitVec.allOnes 32 := rfl
  rw [hmask, BitVec.and_allOnes]
  rfl

theorem exists_asel_bit (b : Bool) : ∃ a : Asel, b = true ↔ a = .a1 := by
  cases b
  · exact ⟨.a0, by simp⟩
  · exact ⟨.a1, by simp⟩

/-- Settles O3: a word is a command's encoding exactly when it shows the command's row, and every word has an A. -/
theorem decoderReadsTheOpcodeTable : Obligations.DecoderReadsTheOpcodeTable := by
  intro w
  refine ⟨(decodeWord_eq_instr_iff w _).trans (eq_encode_nop_iff w),
    fun a => (decodeWord_eq_instr_iff w _).trans (eq_encode_encode_iff w a),
    fun a => (decodeWord_eq_instr_iff w _).trans (eq_encode_decode_iff w a), ?_⟩
  rw [decodeWord_illegal_iff]
  obtain ⟨a, ha⟩ := exists_asel_bit (w.getLsbD 4)
  constructor
  · intro h
    exact ⟨fun hrow => h .nop ((eq_encode_nop_iff w).mpr hrow),
      fun hrow => h (.encode a) ((eq_encode_encode_iff w a).mpr ⟨hrow, ha⟩),
      fun hrow => h (.decode a) ((eq_encode_decode_iff w a).mpr ⟨hrow, ha⟩)⟩
  · rintro ⟨hnop, hencode, hdecode⟩ i hi
    cases i with
    | nop => exact hnop ((eq_encode_nop_iff w).mp hi)
    | encode a => exact hencode ((eq_encode_encode_iff w a).mp hi).1
    | decode a => exact hdecode ((eq_encode_decode_iff w a).mp hi).1

/-! ### The decoder of bytes (R72) -/

/-- The bytes of a word on the bus decode as the word. -/
theorem decodeBytes_bytesOfWord (w : Word) : decodeBytes (bytesOfWord w) = decodeWord w := by
  refine congrArg decodeWord (BitVec.eq_of_getLsbD_eq fun k hk => ?_)
  simp only [wordOfBytes, BitVec.getLsbD_append, BitVec.getLsbD_extractLsb']
  grind

theorem decodeTableWord_eq_some_iff (nbits n : Nat) (i : Instr) :
    decodeTableWord nbits n = some i ↔ probeWord nbits n = encode i := by
  rw [← decodeWord_eq_instr_iff, decodeTableWord, decodeBytes_bytesOfWord]
  cases decodeWord (probeWord nbits n) <;> simp

theorem decodeTableWord_eq_none_iff (nbits n : Nat) :
    decodeTableWord nbits n = none ↔ ∀ i, probeWord nbits n ≠ encode i := by
  simp only [ne_eq, ← decodeTableWord_eq_some_iff, Option.eq_none_iff_forall_ne_some]

/-- Settles O4: each of the five is an encoding, and the three others are none. -/
theorem writtenOutWordsDecode : Obligations.WrittenOutWordsDecode := by
  simp only [Obligations.WrittenOutWordsDecode, decodeTableWord_eq_some_iff, decodeTableWord_eq_none_iff]
  exact ⟨rfl, rfl, rfl, rfl, rfl, ne_encode_of_not_listed (by decide), ne_encode_of_not_listed (by decide),
    ne_encode_of_not_listed (by decide)⟩

end Sys2Proof
end

section
/-! SUPPORT. The pseudo-operations of a host script, run on a block that is ready for them (30_encoding.md R82). -/

namespace Sys2Proof.Machine

/-! ### Runs -/

theorem run_succ_of_step {M : Host.Core} {s u : M.State} (k : Nat) (h : M.step s = .next u) :
    M.run (k + 1) s = M.run k u := by
  simp [Host.Core.run, h]

/-- A run goes on from where its beginning ends. -/
theorem run_add_of_run {M : Host.Core} {k : Nat} (j : Nat) {s u : M.State} (h : M.run k s = .next u) :
    M.run (k + j) s = M.run j u := by
  induction k generalizing s with
  | zero =>
    cases h
    rw [Nat.zero_add]
  | succ k ih =>
    obtain ⟨v, hv, hrest⟩ := run_succ_next h
    rw [Nat.add_right_comm, run_succ_of_step (k + j) hv, ih hrest]

/-! ### The steps of a block with no turn listed (log 6) -/

/-- A ready block waits for the HOST. -/
theorem State.Ready.step_eq {s : State} (h : s.Ready) : step s = hostStep s := by
  simp [step, freeStep, engineEnabled, h.sched, h.seq]

/-- The state with a transaction's response, and the script that is left. -/
def State.respond (r : Response) (rest : List HostOp) (s : State) : State :=
  { s with resp := some r, script := rest }

/-- After an OK response an IDLE block is ready for what is left of the script. -/
theorem State.ready_respond {s : State} {r : Response} (rest : List HostOp) (hsched : s.sched = [])
    (hrst : s.rst = false) (hseq : s.seq = .idle) (hr : r ≠ .error) : (s.respond r rest).Ready :=
  ⟨hsched, hrst, hseq, by simp [State.hostHalted, State.respond, hr]⟩

/-- A 32-bit access at an aligned offset ends OK while RST is low (20_memory.md R53). -/
theorem busError_word_aligned {s : State} {off : Nat} (hrst : s.rst = false) (halign : off % 4 = 0) :
    busError s off .word = false := by
  simp [busError, sizeBytes, hrst, halign]

/-- A running HOST issues its next operation at the block offset its address reaches. -/
theorem hostStep_of_op {s : State} {op : HostOp} {rest : List HostOp} {off : Nat} (hrunning : s.hostHalted = false)
    (hscript : s.script = op :: rest) (hoff : blockOffset s.cfg op.addr = some off) :
    hostStep s = hostOp op off rest s := by
  simp [hostStep, hrunning, hscript, hoff]

/-- On a ready block, `W32` at an aligned offset takes one step. -/
theorem State.Ready.step_w32 {s : State} {off : Nat} {v : Word} {rest : List HostOp} (h : s.Ready)
    (hscript : s.script = w32 s.cfg off v :: rest) (halign : off % 4 = 0) (hoff : off < 0x30000) :
    step s = .next ((busWrite off .word v s).respond .written rest) := by
  rw [h.step_eq, hostStep_of_op h.running hscript (blockOffset_sysAddr s.cfg hoff)]
  exact congrArg Host.Outcome.next (hostWrite_of_ok v rest (busError_word_aligned h.rst halign))

/-! ### RUN -/

/-- Bit 1 of STATUS is DONE (10_state.md R22). -/
theorem status_toWord_and_two (st : Status) : st.toWord &&& 0x2#32 = 0x2#32 ↔ st.done = true := by
  obtain ⟨busy, done, err, ovr, errcode⟩ := st
  revert busy done err ovr errcode
  decide

theorem afterRead_register {s : State} {off : Nat} (h : off < 0x100) : s.afterRead off = s := by
  have hout : outWindow s.cfg off = false := decide_eq_false (by omega)
  simp [State.afterRead, hout]

/-- On a ready block with DONE set, `WAITDONE` takes one step. -/
theorem State.Ready.step_waitDone {s : State} {rest : List HostOp} (h : s.Ready) (hdone : s.status.done = true)
    (hscript : s.script = waitDone s.cfg ++ rest) :
    step s = .next (s.respond (.data s.status.toWord) rest) := by
  have hok : busError s 0x008 .word = false := busError_word_aligned h.rst (by decide)
  have hread : readData s 0x008 .word = s.status.toWord := readData_register s (by decide) (by decide)
  have hshown : s.status.toWord &&& 0x2#32 = 0x2#32 := (status_toWord_and_two s.status).mpr hdone
  rw [h.step_eq, hostStep_of_op h.running hscript (blockOffset_sysAddr s.cfg (by decide))]
  simp [hostOp, poll, hostPoll, hok, hread, hshown, afterRead_register, State.respond]

/-- With a command in flight and a HOST that has not faulted, the completion is next and leaves the block ready, with
DONE set and the command's inputs as they were (40_sequencer.md R91, R92; log 6). -/
theorem step_completes {s : State} (hsched : s.sched = []) (hrst : s.rst = false) (hseq : s.seq = .busy)
    (hrunning : s.hostHalted = false) :
    ∃ t, step s = .next t ∧ t.Ready ∧ t.status.done = true ∧ t.cfg = s.cfg ∧ t.script = s.script ∧
      t.cmdLast = s.cmdLast ∧ t.inLen = s.inLen ∧ ∀ i, t.inByte i = s.inByte i := by
  obtain ⟨r, hcompletion, -⟩ := completion_cases s
  obtain ⟨hcfg, hrst', -, hstatus, hcmdLast, hinLen, hinBuf, hinBatch, hseq', -, hresp, hscript, -, hsched'⟩ :=
    finish_frame r s
  have hstep : step s = completion s := by simp [step, freeStep, engineEnabled, hsched, hseq, hrst]
  have hrunning' : (finish r s).hostHalted = false := by rwa [State.hostHalted, hresp, hcfg]
  exact ⟨finish r s, hstep.trans hcompletion, ⟨hsched'.trans hsched, hrst'.trans hrst, hseq', hrunning'⟩,
    by rw [hstatus, Status.completed_done], hcfg, hscript, hcmdLast, hinLen, inByte_congr hinBuf hinBatch⟩

/-- Settles O55: the CMD write is accepted, the command completes, and the first read of STATUS shows DONE. -/
theorem runCommandEnds : Obligations.RunCommandEnds := by
  intro s cmd rest _ hready hscript
  have hissue := hready.step_w32 (rest := waitDone s.cfg ++ rest) hscript (by decide) (by decide)
  rw [busWrite_cmd, writeCmd_idle _ s hready.seq] at hissue
  obtain ⟨t, hcomplete, ht, hdone, hcfg, htscript, hcmdLast, hinLen, hinByte⟩ :=
    step_completes (s := (s.accept cmd.toWord).respond .written (waitDone s.cfg ++ rest)) hready.sched hready.rst rfl
      (by simp [State.hostHalted, State.respond])
  have hwait := ht.step_waitDone hdone (htscript.trans (by rw [hcfg]; rfl))
  refine ⟨t.respond (.data t.status.toWord) rest, ?_, rfl,
    State.ready_respond rest ht.sched ht.rst ht.seq (by simp), hdone, hcmdLast, hinLen, hinByte⟩
  calc Sys2Proof.core.run 3 s
      = Sys2Proof.core.run 2 _ := run_succ_of_step (M := Sys2Proof.core) 2 hissue
    _ = Sys2Proof.core.run 1 t := run_succ_of_step (M := Sys2Proof.core) 1 hcomplete
    _ = .next _ := run_succ_of_step (M := Sys2Proof.core) 0 hwait

/-! ### PUT -/

theorem Memory.setBytes_append (m : Memory) (i : Nat) (bs cs : List Byte) :
    m.setBytes i (bs ++ cs) = (m.setBytes i bs).setBytes (i + bs.length) cs := by
  induction bs generalizing m i with
  | nil => rfl
  | cons b bs ih =>
    rw [List.cons_append, Memory.setBytes, Memory.setBytes, ih, List.length_cons, Nat.add_comm bs.length,
      Nat.add_assoc]

/-- The writes of consecutive words from word k of IN_BUF on. -/
def wordWrites (c : Config) (k : Nat) (ws : List Word) : List HostOp :=
  (ws.zipIdx k).map fun p => w32 c (0x10000 + 4 * p.2) p.1

theorem put_eq (c : Config) (p : List Byte) :
    put c p = wordWrites c 0 (putWords p) ++ [w32 c 0x010 (BitVec.ofNat 32 p.length)] := rfl

theorem wordWrites_cons (c : Config) (k : Nat) (w : Word) (ws : List Word) :
    wordWrites c k (w :: ws) = w32 c (0x10000 + 4 * k) w :: wordWrites c (k + 1) ws := rfl

/-- On a ready block, words that fit IN_BUF are written in as many steps. -/
theorem run_wordWrites {s : State} {k : Nat} {ws : List Word} {rest : List HostOp} (hcfg : s.cfg.wf = true)
    (hready : s.Ready) (hfits : 4 * (k + ws.length) ≤ s.cfg.inCap)
    (hscript : s.script = wordWrites s.cfg k ws ++ rest) :
    ∃ t : State, Sys2Proof.core.run ws.length s = .next t ∧ t.Ready ∧ t.cfg = s.cfg ∧ t.script = rest ∧
      t.inBuf = s.inBuf.setBytes (4 * k) (ws.flatMap (writeLanes .word)) := by
  induction ws generalizing s k with
  | nil => exact ⟨s, rfl, hready, rfl, hscript, rfl⟩
  | cons w ws ih =>
    rw [wordWrites_cons] at hscript
    rw [List.length_cons] at hfits
    have hcap := inCap_le hcfg
    have halign : (0x10000 + 4 * k) % 4 = 0 := by omega
    have hstep := hready.step_w32 hscript halign (by omega)
    rw [busWrite_inBuf_idle w hready.seq hcfg (busError_word_aligned hready.rst halign) (by omega) (by omega),
      Nat.add_sub_cancel_left] at hstep
    obtain ⟨t, hrun, ht, htcfg, htscript, hinBuf⟩ :=
      ih (s := State.respond .written (wordWrites s.cfg (k + 1) ws ++ rest)
          { s with inBuf := s.inBuf.setBytes (4 * k) (writeLanes .word w) })
        (k := k + 1) hcfg (State.ready_respond _ hready.sched hready.rst hready.seq (by simp))
        (show 4 * (k + 1 + ws.length) ≤ s.cfg.inCap by omega) rfl
    refine ⟨t, (run_succ_of_step (M := Sys2Proof.core) ws.length hstep).trans hrun, ht, htcfg, htscript, ?_⟩
    rw [hinBuf, List.flatMap_cons, Memory.setBytes_append, writeLanes_length]
    rfl

theorem flatMap_range_four {α : Type} (f : Nat → α) (n : Nat) :
    ((List.range n).flatMap fun w => (List.range 4).map fun j => f (4 * w + j)) = (List.range (4 * n)).map f := by
  induction n with
  | zero => rfl
  | succ n ih =>
    rw [List.range_succ (n := n), List.flatMap_append, ih, Nat.mul_succ, List.range_add, List.map_append, List.map_map]
    simp [Function.comp_def]

/-- The bytes of the words of `PUT p`: those of p, then 0x00. -/
theorem putWords_bytes (p : List Byte) :
    (putWords p).flatMap (writeLanes .word) =
      (List.range (4 * ((p.length + 3) / 4))).map fun i => p.getD i 0 := by
  rw [← flatMap_range_four, putWords, List.flatMap_map]
  refine List.flatMap_congr fun w _ => List.map_congr_left fun j hj => ?_
  have hj : j < 4 := List.mem_range.mp hj
  rw [lane_lanes _ hj]
  interval_cases j <;> rfl

theorem input_eq_of_get {s : State} {p : List Byte} (h : ∀ i < p.length, s.inBuf.get i = some (p.getD i 0)) :
    s.input p.length = p := by
  refine List.ext_getElem (input_length s p.length) fun i _ hi => ?_
  simp [State.input, State.inByte, h i hi, hi]

theorem inputWritten_of_get {s : State} {p : List Byte} (h : ∀ i < p.length, s.inBuf.get i = some (p.getD i 0)) :
    s.inputWritten p.length = true :=
  List.all_eq_true.mpr fun i hi => by rw [h i (List.mem_range.mp hi), Option.isSome_some]

/-- Settles O56: the words of the payload are written from IN_BUF[0] on, then its length. -/
theorem putWritesTheInput : Obligations.PutWritesTheInput := by
  intro s p rest hinv hready hfits hscript
  have hwords : (putWords p).length = (p.length + 3) / 4 := by simp [putWords]
  have hcap := inCap_le hinv.cfg_wf
  rw [put_eq, List.append_assoc] at hscript
  obtain ⟨t, hrun, ht, hcfg, htscript, hinBuf⟩ :=
    run_wordWrites hinv.cfg_wf hready (by rw [Nat.zero_add, hwords]; exact hfits) hscript
  rw [hwords] at hrun
  have hlast := ht.step_w32 (off := 0x010) (v := BitVec.ofNat 32 p.length) (rest := rest)
    (by rw [htscript, hcfg]; rfl) (by decide) (by decide)
  rw [busWrite_inLen, writeInLen_idle _ t ht.seq] at hlast
  have hget : ∀ i < p.length, t.inBuf.get i = some (p.getD i 0) := by
    intro i hi
    have hi' : i < 4 * ((p.length + 3) / 4) := by omega
    simp [hinBuf, putWords_bytes, Memory.get_setBytes, hi']
  exact ⟨_, (run_add_of_run 1 hrun).trans (run_succ_of_step (M := Sys2Proof.core) 0 hlast), rfl,
    State.ready_respond rest ht.sched ht.rst ht.seq (by simp), Nat.mod_eq_of_lt (by omega), input_eq_of_get hget,
    inputWritten_of_get hget⟩

end Sys2Proof.Machine
end

section
/-! SUPPORT. The sequencer: what starts and ends a command in flight, and which writes it lets through
(40_sequencer.md R85 to R92). -/

namespace Sys2Proof.Machine

/-! ### Acceptance and the completion step -/

/-- Settles O5: OkNoOutput ends a completion with the flags and SEQ alone. -/
theorem nopCompletesWithoutOutput : Obligations.NopCompletesWithoutOutput := fun _ => rfl

/-- Settles O32: the operation's fields as R88 lists them. -/
theorem acceptanceEffect : Obligations.AcceptanceEffect := fun _ _ => rfl

theorem completion_of_instr {s : State} {i : Instr} (h : decodeWord s.pend = .instr i) : completion s = exec i s := by
  simp [completion, h]

theorem completion_of_illegal {s : State} {r : IllegalWord} (h : decodeWord s.pend = .illegal r) :
    completion s = .next (finish (.fail .illegalCmd false 0 0) s) := by
  simp [completion, h, completeIllegal]

/-- The ENGINE's turn, listed or by default (log 6), is the completion step where it is enabled (R91). -/
theorem step_engine {s : State} (hseq : s.seq = .busy) (hrst : s.rst = false)
    (hturn : s.sched = [] ∨ s.sched.head? = some .engine) : step s = completion s.popTurn := by
  rcases hturn with hnone | hhead
  · have hpop : s.popTurn = s := by rw [State.popTurn, hnone, List.tail_nil, ← hnone]
    simp [step, freeStep, engineEnabled, hnone, hseq, hrst, hpop]
  · obtain ⟨turns, hsched⟩ := List.head?_eq_some_iff.mp hhead
    simp [step, turnStep, engineStep, engineEnabled, State.popTurn, hsched, hseq, hrst]

/-- Settles O30: the completion step performs the command PEND decodes to. -/
theorem stepRunsTheCommandInFlight : Obligations.StepRunsTheCommandInFlight := by
  refine fun s hseq hrst hturn => ⟨fun i hi => ?_, fun r hr => ?_⟩
  · rw [step_engine hseq hrst hturn, completion_of_instr (s := s.popTurn) hi]
  · rw [step_engine hseq hrst hturn, completion_of_illegal (s := s.popTurn) hr]

/-- The host's numbering of 32-bit words is their value. -/
theorem probeWord_toNat (w : Word) : probeWord 32 w.toNat = w := by
  rw [probeWord, Nat.mod_eq_of_lt w.isLt, BitVec.ofNat_toNat, BitVec.setWidth_eq]

/-- Settles O31: the placed word is the command's encoding, and decodes to it. -/
theorem placedCommandRunsNext : Obligations.PlacedCommandRunsNext := by
  intro s i
  rw [step_withFetchWord, probeWord_toNat]
  exact completion_of_instr (decodeWord_encode i)

/-! ### How SEQ moves (R85) -/

@[simp] theorem writeInLen_seq (v : Word) (s : State) : (s.writeInLen v).seq = s.seq := by
  rcases seq_idle_or_busy s with h | h
  · rw [writeInLen_idle v s h]
  · rw [writeInLen_busy v s h, State.dropWrite_seq]

@[simp] theorem writeIn_seq (i : Nat) (bs : List Byte) (s : State) : (s.writeIn i bs).seq = s.seq := by
  rcases seq_idle_or_busy s with h | h
  · rw [writeIn_idle i bs s h]
  · rw [writeIn_busy i bs s h, State.dropWrite_seq]

/-- A write that ends OK leaves SEQ alone, or it is an accepted CMD write. -/
theorem busWrite_seq_cases (off : Nat) (n : Size) (v : Word) (s : State) :
    (busWrite off n v s).seq = s.seq ∨ (off = 0x00C ∧ s.seq = .idle ∧ busWrite off n v s = s.accept v) := by
  rcases busWrite_cases off n v s with ⟨-, e⟩ | ⟨-, e⟩ | ⟨hoff, e⟩ | ⟨-, e⟩ | ⟨-, -, e⟩ | ⟨-, -, -, -, -, e⟩ <;> rw [e]
  · exact .inl rfl
  · exact .inl rfl
  · rcases seq_idle_or_busy s with h | h
    · exact .inr ⟨hoff, h, writeCmd_idle v s h⟩
    · exact .inl (by rw [writeCmd_busy v s h, State.dropWrite_seq])
  · exact .inl (writeInLen_seq v s)
  · exact .inl (writeIn_seq _ _ s)
  · exact .inl rfl

/-- A SEQ that keeps its value moves neither way. -/
theorem seq_unmoved {a b : Seq} {P Q : Prop} (h : b = a) :
    (a = .idle → b = .busy → P) ∧ (a = .busy → b = .idle → Q) := by
  subst h
  simp +contextual

/-- Settles O34: of all a step can do, only acceptance, the completion step and reset touch SEQ. -/
theorem seqMovesOnlyByAcceptCompletionReset : Obligations.SeqMovesOnlyByAcceptCompletionReset := by
  refine ⟨rfl, fun s t hstep => ?_⟩
  rcases step_block_cases s t hstep with
    ⟨hseq, -, hcompletion⟩ | ⟨off, n, w, rest, hw, hok, rfl⟩ | hsame | ⟨hreset, hrst, -⟩ | rfl
  · exact ⟨by simp [hseq], fun _ _ => .inl hcompletion⟩
  · rcases busWrite_seq_cases off n w s.popTurn with hseq | ⟨rfl, hseq, e⟩
    · exact seq_unmoved hseq
    · obtain rfl := word_of_register_access hok (by decide)
      rw [e]
      exact ⟨fun _ _ => ⟨w, hw, rfl, rfl, rfl⟩, fun _ hidle => by cases hidle⟩
  · exact seq_unmoved hsame.seq
  · exact ⟨by simp [hreset.seq], fun _ _ => .inr ⟨hreset, hrst⟩⟩
  · exact seq_unmoved rfl

/-! ### The writes of a HOST while BUSY (R89) -/

/-- A write that ends OK outside the registers that take writes and outside IN_BUF does nothing (R56). -/
theorem busWrite_elsewhere {s : State} {off : Nat} (n : Size) (v : Word) (hctrl : off ≠ 0x004) (hstatus : off ≠ 0x008)
    (hdropped : ¬ droppedOffset s.cfg off) : busWrite off n v s = s := by
  have hpos := (sizeBytes_range n).1
  rcases busWrite_cases off n v s with
    ⟨hoff, -⟩ | ⟨hoff, -⟩ | ⟨hoff, -⟩ | ⟨hoff, -⟩ | ⟨hlow, hfits, -⟩ | ⟨-, -, -, -, -, e⟩
  · exact absurd hoff hctrl
  · exact absurd hoff hstatus
  · exact absurd (.inl hoff) hdropped
  · exact absurd (.inr (.inl hoff)) hdropped
  · exact absurd (.inr (.inr ⟨hlow, by omega⟩)) hdropped
  · exact e

/-- Settles O35: by the offset, of which the dropped ones are those that would change a command in flight. -/
theorem writesWhileBusy : Obligations.WritesWhileBusy := by
  refine fun s off n v hseq hcfg hok => ⟨busWrite_dropped v hseq hcfg hok, ?_, ?_,
    fun hctrl hstatus hcmd hlen hin => ?_, fun rest => hostWrite_of_ok v rest hok, fun x rest => ?_⟩
  · rintro rfl
    rfl
  · rintro rfl
    rw [busWrite_status, State.writeStatus, writeOneClear_eq]
  · exact busWrite_elsewhere n v hctrl hstatus (by simp only [droppedOffset]; tauto)
  · obtain ⟨-, -, hserved, -⟩ := busErrorExactly s off n
    exact ((hserved hok).2 x rest).1

end Sys2Proof.Machine
end

section
/-! SUPPORT. The completion step seen from outside: what a command may read, what it writes, and what it leaves
(40_sequencer.md R92, R94). -/

namespace Sys2Proof.Machine

/-! ### The frame of a completion -/

/-- The registers no completion writes, by offset (10_state.md R19). -/
theorem regWord_finish (r : Result) (s : State) {off : Nat} (hstatus : off ≠ 0x008)
    (hresult : ¬ (0x014 ≤ off ∧ off < 0x024)) : regWord (finish r s) off = regWord s off := by
  obtain ⟨hcfg, -, hctrl, -, hcmd, hlen, -⟩ := finish_frame r s
  unfold regWord
  split
  case h_1 => rfl
  case h_2 => rw [hctrl]
  case h_3 => exact absurd rfl hstatus
  case h_4 => exact hcmd
  case h_5 => exact hlen
  case h_10 => rw [hcfg]
  case h_11 => rw [hcfg]
  case h_12 => rfl
  all_goals omega

/-- Outside STATUS, the result registers and OUT_BUF, a completion changes no byte of the address map. -/
theorem byteAt_finish (r : Result) (s : State) {off : Nat} (hstatus : off ∉ [0x008, 0x009, 0x00A, 0x00B])
    (hresult : ¬ (0x014 ≤ off ∧ off < 0x024)) (hout : outWindow s.cfg off = false) :
    byteAt (finish r s) off = byteAt s off := by
  obtain ⟨hcfg, -, -, -, -, -, hbuf, hbatch, -⟩ := finish_frame r s
  by_cases hreg : off < 0x100
  · have haligned : off - off % 4 ≠ 0x008 := by
      simp only [List.mem_cons, List.not_mem_nil, or_false] at hstatus
      omega
    rw [byteAt_register _ hreg, byteAt_register _ hreg, regWord_finish r s haligned (by omega)]
  · simp [byteAt, hreg, hcfg, hout, inByte_congr hbuf hbatch]

/-- Settles O11: every command ends with `finish`, and NOP's outcome stores no result. -/
theorem completionFrame : Obligations.CompletionFrame := by
  intro i s t h
  obtain ⟨r, e, -⟩ := exec_cases i s
  obtain rfl : finish r s = t := Host.Outcome.next.inj (e.symm.trans h)
  obtain ⟨hcfg, hrst, hctrl, hstatus, hcmd, hlen, hbuf, hbatch, -, hpend, hresp, hscript, hvals, hsched⟩ :=
    finish_frame r s
  refine ⟨hcfg, hrst, hctrl, by rw [hstatus, Status.completed_ovr], hcmd, hlen, hpend, hresp, hscript, hvals, hsched,
    inByte_congr hbuf hbatch, fun off => byteAt_finish r s, ?_⟩
  rintro rfl
  rw [← Host.Outcome.next.inj ((nopCompletesWithoutOutput s).symm.trans h)]
  exact ⟨fun _ => rfl, rfl, rfl, rfl, rfl⟩

/-! ### What a command may read (R94) -/

theorem input_of_sameInputs {s t : State} (h : s.SameInputs t) (hlen : s.inLen.toNat ≤ s.cfg.inCap) :
    t.input s.inLen.toNat = s.input s.inLen.toNat :=
  List.map_congr_left fun i hi => h.input i (by rw [min_eq_left hlen]; exact List.mem_range.mp hi)

theorem encodeResult_of_sameInputs {s t : State} (h : s.SameInputs t) (a : Asel) :
    encodeResult a t = encodeResult a s := by
  unfold encodeResult
  rw [h.inLen, h.cfg]
  split
  · rfl
  · rw [input_of_sameInputs h (by omega)]

theorem decodeResult_of_sameInputs {s t : State} (h : s.SameInputs t) (a : Asel) :
    decodeResult a t = decodeResult a s := by
  unfold decodeResult
  rw [h.inLen, h.cfg]
  split
  · rfl
  · rw [input_of_sameInputs h (by omega)]

/-- Two states that agree on what a command may read complete with one outcome. -/
theorem completion_of_sameInputs {s t : State} (h : s.SameInputs t) :
    ∃ r, completion s = .next (finish r s) ∧ completion t = .next (finish r t) := by
  cases hword : decodeWord s.pend with
  | illegal r => exact ⟨_, completion_of_illegal hword, completion_of_illegal (h.pend ▸ hword)⟩
  | instr i =>
    rw [completion_of_instr hword, completion_of_instr (h.pend ▸ hword)]
    cases i with
    | nop => exact ⟨.okNoOutput, rfl, rfl⟩
    | encode a => exact ⟨encodeResult a s, rfl, by rw [← encodeResult_of_sameInputs h a]; rfl⟩
    | decode a => exact ⟨decodeResult a s, rfl, by rw [← decodeResult_of_sameInputs h a]; rfl⟩

/-- One outcome leaves the same results in two blocks in flight, whose result registers acceptance has cleared. -/
theorem finish_results_agree (r : Result) {s t : State} (hs : s.RegInv) (ht : t.RegInv) (hsbusy : s.seq = .busy)
    (htbusy : t.seq = .busy) :
    (finish r t).outLen = (finish r s).outLen ∧ (finish r t).lzCount = (finish r s).lzCount ∧
    (finish r t).errByte = (finish r s).errByte ∧ (finish r t).errIndex = (finish r s).errIndex ∧
    ∀ i, i < (finish r s).outLen.toNat → (finish r t).outByte i = (finish r s).outByte i := by
  obtain ⟨-, -, -, hslen, hslz, hsbyte, hsindex⟩ := hs.r47.in_flight (hs.busy_seq.mpr hsbusy)
  obtain ⟨-, -, -, htlen, htlz, htbyte, htindex⟩ := ht.r47.in_flight (ht.busy_seq.mpr htbusy)
  cases r with
  | ok out lz =>
    refine ⟨rfl, rfl, htbyte.trans hsbyte.symm, htindex.trans hsindex.symm, fun i hi => ?_⟩
    have hi : i < out.length := hi.trans_le (Nat.mod_le _ _)
    have hget := List.getElem?_eq_getElem hi
    exact (outByte_storeResult out lz t i _ hget).trans (outByte_storeResult out lz s i _ hget).symm
  | okNoOutput =>
    exact ⟨htlen.trans hslen.symm, htlz.trans hslz.symm, htbyte.trans hsbyte.symm, htindex.trans hsindex.symm,
      by simp [finish_okNoOutput, hslen]⟩
  | fail c touched b e => cases touched <;> exact ⟨rfl, rfl, rfl, rfl, by simp [finish]⟩

/-- Settles O13: the outcome is one, and the flags but OVR and the results follow from it alone. -/
theorem outcomeDependsOnInputsAlone : Obligations.OutcomeDependsOnInputsAlone := by
  intro s t s' t' hsame hs ht hsbusy htbusy hcs hct
  obtain ⟨r, es, et⟩ := completion_of_sameInputs hsame
  obtain rfl : finish r s = s' := Host.Outcome.next.inj (es.symm.trans hcs)
  obtain rfl : finish r t = t' := Host.Outcome.next.inj (et.symm.trans hct)
  obtain ⟨-, -, -, hsstatus, -, -, -, -, hsseq, -⟩ := finish_frame r s
  obtain ⟨-, -, -, htstatus, -, -, -, -, htseq, -⟩ := finish_frame r t
  obtain ⟨hlen, hlz, hbyte, hindex, hbytes⟩ := finish_results_agree r hs ht hsbusy htbusy
  rw [hsstatus, htstatus]
  exact ⟨rfl, rfl, rfl, rfl, hlen, hlz, hbyte, hindex, htseq.trans hsseq.symm, hbytes⟩

/-! ### The OUT_BUF bytes a conversion leaves unspecified (R92; log 4) -/

/-- The outcome of a conversion is a result that fits, or a failure that has touched OUT_BUF (41_encode.md R104,
42_decode.md R119). -/
theorem exec_conversion_cases {i : Instr} (hi : i ≠ .nop) (s : State) :
    (∃ out k, out.length ≤ s.cfg.outCap ∧ exec i s = .next (finish (.ok out k) s)) ∨
    (∃ c b e, c ≠ .none ∧ exec i s = .next (finish (.fail c true b e) s)) := by
  cases i with
  | nop => exact absurd rfl hi
  | encode a =>
    simp only [exec, execEncode]
    rcases encodeResult_cases a s with ⟨-, e⟩ | ⟨-, ⟨hfits, e⟩ | ⟨-, e⟩⟩ <;> rw [e]
    · exact .inr ⟨_, _, _, by simp, rfl⟩
    · exact .inl ⟨_, _, hfits, rfl⟩
    · exact .inr ⟨_, _, _, by simp, rfl⟩
  | decode a =>
    simp only [exec, execDecode]
    rcases decodeResult_cases a s with ⟨-, e⟩ | ⟨-, ⟨c, j, -, e⟩ | ⟨out, k, -, ⟨hfits, e⟩ | ⟨-, e⟩⟩⟩ <;> rw [e]
    · exact .inr ⟨_, _, _, by simp, rfl⟩
    · exact .inr ⟨_, _, _, by simp, rfl⟩
    · exact .inl ⟨_, _, hfits, rfl⟩
    · exact .inr ⟨_, _, _, by simp, rfl⟩

/-- While IDLE, OUT_BUF reads as it is stored (10_state.md R39). -/
theorem byteAt_outBuf_idle {s : State} {j : Nat} (hcfg : s.cfg.wf = true) (hidle : s.status.busy = false)
    (hj : j < s.cfg.outCap) : byteAt s (0x20000 + j) = s.outByte j := by
  have hcap := inCap_le hcfg
  have hin : inWindow s.cfg (0x20000 + j) = false := decide_eq_false (by omega)
  have hout : outWindow s.cfg (0x20000 + j) = true := decide_eq_true (by omega)
  simp [byteAt_buffers s (by omega : 0x180 ≤ 0x20000 + j), hin, hout, hidle]

/-- An unlisted byte of OUT_BUF is a draw of its batch, stored and on the bus. -/
theorem outBuf_unlisted_drawn {s : State} {j : Nat} (hcfg : s.cfg.wf = true) (hidle : s.status.busy = false)
    (h : s.outBuf.get j = none) :
    s.outBuf.get j = none ∧ s.outByte j = Config.freeByte s.outBatch j ∧
      (j < s.cfg.outCap → byteAt s (0x20000 + j) = Config.freeByte s.outBatch j) := by
  have hbyte : s.outByte j = Config.freeByte s.outBatch j := by rw [State.outByte, h, Option.getD_none]
  exact ⟨h, hbyte, fun hj => (byteAt_outBuf_idle hcfg hidle hj).trans hbyte⟩

theorem outCap_le {c : Config} (h : c.wf = true) : c.outCap ≤ 0x10000 := by
  simp only [Config.wf, capOk, Bool.and_eq_true, decide_eq_true_eq] at h
  omega

/-- Settles O57: a success lists its result bytes alone, a failure none, and any other byte reads from the new batch. -/
theorem unspecifiedOutputIsRedrawn : Obligations.UnspecifiedOutputIsRedrawn := by
  intro s t i hcfg hi h
  rcases exec_conversion_cases hi s with ⟨out, k, hfits, e⟩ | ⟨c, b, x, hc, e⟩
  · obtain rfl := Host.Outcome.next.inj (e.symm.trans h)
    refine ⟨rfl, rfl, rfl, by simp [finish_ok], fun j hj => outBuf_unlisted_drawn hcfg rfl ?_⟩
    have hcap := outCap_le hcfg
    have hlen : (BitVec.ofNat 32 out.length).toNat = out.length := Nat.mod_eq_of_lt (by omega)
    have hj : out.length ≤ j := hlen.ge.trans (hj.resolve_left (by simp [finish_ok]))
    simp [finish_ok, Memory.get_ofBytes, hj]
  · obtain rfl := Host.Outcome.next.inj (e.symm.trans h)
    exact ⟨rfl, rfl, rfl, fun _ => rfl, fun j _ => outBuf_unlisted_drawn hcfg rfl rfl⟩

end Sys2Proof.Machine
end

section
/-! SUPPORT. The arithmetic of ENCODE against the spec's own words (41_encode.md R98 to R109), and the completion of
ENCODE (R103 to R105). -/

namespace Sys2Proof.Machine

/-! ### Positional sums (R99, R101) -/

/-- A positional sum takes its first digit with the weight of the digits after it. -/
theorem sum_weights_cons {α : Type} (value : α → Nat) (z : α) (b : Nat) (d : α) (ds : List α) :
    ∑ i ∈ Finset.range (d :: ds).length, value ((d :: ds).getD i z) * b ^ ((d :: ds).length - 1 - i) =
      value d * b ^ ds.length +
        ∑ i ∈ Finset.range ds.length, value (ds.getD i z) * b ^ (ds.length - 1 - i) := by
  rw [List.length_cons, Finset.sum_range_succ', add_comm]
  simp [Nat.sub_sub, add_comm]

/-- Settles O17, by induction on the payload: each byte adds its weight. -/
theorem val256IsTheBigEndianSum : Obligations.Val256IsTheBigEndianSum := by
  refine ⟨val256_nil, fun p => ?_⟩
  induction p with
  | nil => rfl
  | cons b p ih => rw [val256_cons, sum_weights_cons BitVec.toNat, ← ih]

theorem val58_cons (d : Nat) (ds : List Nat) : val58 (d :: ds) = d * 58 ^ ds.length + val58 ds :=
  sum_weights_cons id 0 58 d ds

/-- The value of a digit list is the library's, which lists the least significant digit first. -/
theorem val58_eq_ofDigits (ds : List Nat) : val58 ds = Nat.ofDigits 58 ds.reverse := by
  induction ds with
  | nil => rfl
  | cons d ds ih =>
    rw [val58_cons, ih, List.reverse_cons, Nat.ofDigits_append, Nat.ofDigits_singleton, List.length_reverse]
    ring

theorem val58_digits58 (x : Nat) : val58 (digits58 x) = x := by
  rw [val58_eq_ofDigits, digits58_eq, List.reverse_reverse, Nat.ofDigits_digits]

theorem digits58_ne_nil {x : Nat} (h : 0 < x) : digits58 x ≠ [] := by
  rw [digits58_eq, ne_eq, List.reverse_eq_nil_iff, Nat.digits_eq_nil_iff_eq_zero]
  exact h.ne'

/-- The most significant digit is not 0. -/
theorem digits58_head?_ne_zero (x : Nat) : (digits58 x).head? ≠ some 0 := by
  rcases Nat.eq_zero_or_pos x with rfl | hx
  · simp
  · rw [digits58_eq, List.head?_reverse, List.getLast?_eq_getLast_of_ne_nil (Nat.digits_ne_nil_iff_ne_zero.mpr hx.ne'),
      ne_eq, Option.some.injEq]
    exact Nat.getLast_digit_ne_zero 58 hx.ne'

/-- Settles O15: the digits are the library's, and a number has at most m of them exactly when it is below 58^m. -/
theorem digits58IsMinimalPositional : Obligations.Digits58IsMinimalPositional := by
  refine ⟨digits58_zero, fun x hx => ?_⟩
  have hne := digits58_ne_nil hx
  have hlen := List.length_pos_of_ne_nil hne
  refine ⟨digits58_lt x, digits58_head?_ne_zero x, hne, ?_, (digits58_length_le_iff x _).mp le_rfl,
    (val58_digits58 x).symm⟩
  rw [← not_lt, ← digits58_length_le_iff]
  omega

/-- Settles O21: the digits of the value are as many as the least power of 58 above it asks for. -/
theorem textLengthIsMinimal : Obligations.TextLengthIsMinimal := fun table p =>
  ⟨(digits58 (val256 p)).length, enc_length table p, (digits58_length_le_iff _ _).mp le_rfl,
    fun l => (digits58_length_le_iff _ l).mpr⟩

/-! ### Leading zeros (R100, R106) -/

theorem getElem?_of_lt_leadingRun {c : Byte} {p : List Byte} {i : Nat} (h : i < leadingRun c p) : p[i]? = some c := by
  rw [leadingRun_split c p, List.getElem?_append_left (by simpa using h), List.getElem?_replicate_of_lt h]

theorem getElem?_leadingRun_ne (c : Byte) (p : List Byte) : p[leadingRun c p]? ≠ some c := by
  rw [← List.head?_drop]
  exact leadingRun_stops c p

/-- A run is as long as it can be: it holds one byte alone, and the byte after it is another or missing. -/
theorem leadingRun_longest (c : Byte) (p : List Byte) :
    leadingRun c p ≤ p.length ∧ (∀ i, i < leadingRun c p → p[i]? = some c) ∧ p[leadingRun c p]? ≠ some c :=
  ⟨leadingRun_le c p, fun _ => getElem?_of_lt_leadingRun, getElem?_leadingRun_ne c p⟩

/-- Settles O18: both counts are runs of one byte. -/
theorem leadingCountsAreTheLongestRun : Obligations.LeadingCountsAreTheLongestRun := fun table p =>
  ⟨leadingRun_longest 0#8 p, leadingRun_longest (charOf table 0) p⟩

theorem lzc_replicate_append (k : Nat) {q : List Byte} (h : q.head? ≠ some 0#8) :
    lzc (List.replicate k 0#8 ++ q) = k :=
  leadingRun_replicate_append 0#8 k q h

/-- Zero bytes before a payload that does not begin with one put as many zero characters before its text. -/
theorem enc_replicate_append (table : List Byte) (k : Nat) {q : List Byte} (h : q.head? ≠ some 0#8) :
    enc table (List.replicate k 0#8 ++ q) = (List.replicate k (charOf table 0) ++ (enc table q).1, k) := by
  have hq : lzc q = 0 := lzc_replicate_append 0 h
  refine Prod.ext ?_ (lzc_replicate_append k h)
  rw [enc_fst, enc_fst, lzc_replicate_append k h, val256_replicate_zero, hq, List.replicate_zero, List.nil_append]

theorem charOf_inj {table : List Byte} (hnodup : table.Nodup) {d e : Nat} (hd : d < table.length)
    (he : e < table.length) : charOf table d = charOf table e ↔ d = e := by
  rw [charOf_eq_getElem hd, charOf_eq_getElem he, hnodup.getElem_inj_iff]

/-- The text of a payload without leading zero bytes begins with the character of a digit that is not 0. -/
theorem enc_head?_ne_zeroChar {table q : List Byte} (htable : alphaOk table = true) (h : q.head? ≠ some 0#8) :
    (enc table q).1.head? ≠ some (charOf table 0) := by
  obtain ⟨hlen, hnodup⟩ := of_decide_eq_true htable
  have hq : lzc q = 0 := lzc_replicate_append 0 h
  rw [enc_fst, hq, List.replicate_zero, List.nil_append, List.head?_map, ne_eq, Option.map_eq_some_iff]
  rintro ⟨d, hhead, hchar⟩
  have hd : d < 58 := digits58_lt _ d (List.mem_of_head? hhead)
  obtain rfl := (charOf_inj hnodup (by omega) (by omega)).mp hchar
  exact digits58_head?_ne_zero _ hhead

/-- Settles O20: the zero bytes and the zero characters are both counted by the run before another byte; zero bytes
alone are the case of the empty payload, whose text is empty. -/
theorem leadingZerosArePreserved : Obligations.LeadingZerosArePreserved := by
  intro table q k htable hq
  have henc := enc_replicate_append table k hq
  have hhead := enc_head?_ne_zeroChar htable hq
  refine ⟨henc, hhead, ?_, ?_⟩
  · rw [henc]
    exact leadingRun_replicate_append _ k _ hhead
  · simpa [enc, lzc, leadingRun] using enc_replicate_append table k (q := []) (by simp)

/-! ### The worked examples (R103, R111) -/

theorem encode_abc_steps :
    val256 [97#8, 98#8, 99#8] = 6382179 ∧ digits58 6382179 = [32, 41, 11, 33] := by decide

/-- "abc" gives "ZiCa", as its digits 32, 41, 11, 33 spell (41_encode.md R111). -/
theorem enc_abc : enc alphaBitcoin [97#8, 98#8, 99#8] = ([0x5A#8, 0x69#8, 0x43#8, 0x61#8], 0) := by decide

/-- Settles O28: the last example is the one of "abc" with a zero byte, and so a zero character, before it. -/
theorem encodeWorkedExamples : Obligations.EncodeWorkedExamples := by
  have habc := enc_replicate_append alphaBitcoin 1 (q := [97#8, 98#8, 99#8]) (by decide)
  rw [enc_abc] at habc
  exact ⟨rfl, rfl, enc_abc, encode_abc_steps.1, encode_abc_steps.2, habc⟩

/-! ### The completion of ENCODE (R103 to R105) -/

/-- The result registers a failure leaves (40_sequencer.md R92). -/
theorem finish_fail_registers (c : ErrCode) (touched : Bool) (b : Byte) (i : Nat) (s : State) :
    (finish (.fail c touched b i) s).outLen = 0 ∧ (finish (.fail c touched b i) s).lzCount = 0 ∧
    (finish (.fail c touched b i) s).errByte = b.zeroExtend 32 ∧
    (finish (.fail c touched b i) s).errIndex = BitVec.ofNat 32 i := by
  cases touched <;> exact ⟨rfl, rfl, rfl, rfl⟩

/-- A result is read back from OUT_BUF. -/
theorem output_finish_ok (out : List Byte) (k : Nat) (s : State) :
    (finish (.ok out k) s).output out.length = out := by
  refine List.ext_getElem (by simp [State.output]) fun i _ hi => ?_
  simp only [State.output, List.getElem_map, List.getElem_range]
  exact outByte_storeResult out k s i out[i] (List.getElem?_eq_getElem hi)

/-- The result registers a success leaves, where they hold the two counts. -/
theorem finish_ok_registers {out : List Byte} {k : Nat} (s : State) (hout : out.length < 2 ^ 32) (hk : k < 2 ^ 32) :
    (finish (.ok out k) s).outLen.toNat = out.length ∧ (finish (.ok out k) s).lzCount.toNat = k :=
  ⟨Nat.mod_eq_of_lt hout, Nat.mod_eq_of_lt hk⟩

/-- Settles O9: ENCODE ends with `finish` of its outcome, which is one of three; each case of the statement meets its
own outcome and excludes the other two. -/
theorem encodeCommandOutcome : Obligations.EncodeCommandOutcome := by
  refine ⟨rfl, rfl, enc_abc, fun s a hcfg => ⟨finish (encodeResult a s) s, rfl, ?_⟩⟩
  obtain ⟨-, -, -, hstatus, -, -, hbuf, hbatch, hseq, -⟩ := finish_frame (encodeResult a s) s
  refine ⟨by simp [hstatus], by simp [hstatus], by simp [hstatus], hseq, inByte_congr hbuf hbatch, ?_⟩
  have hin := inCap_le hcfg
  have hout := outCap_le hcfg
  rcases encodeResult_cases a s with ⟨hlong, e⟩ | ⟨hlen, ⟨hfits, e⟩ | ⟨hover, e⟩⟩
  · rw [e]
    exact ⟨fun _ => ⟨rfl, rfl, finish_fail_registers ..⟩, fun h => absurd h (by omega)⟩
  · refine ⟨fun h => absurd h (by omega), fun _ text k henc => ?_⟩
    have htext : (enc (alphabet s.cfg a) (s.input s.inLen.toNat)).1 = text := congrArg Prod.fst henc
    have hlz : lzc (s.input s.inLen.toNat) = k := congrArg Prod.snd henc
    have hk : k ≤ s.inLen.toNat := hlz ▸ (leadingRun_le _ _).trans_eq (input_length s _)
    rw [htext] at hfits
    obtain ⟨houtLen, hlzCount⟩ := finish_ok_registers (out := text) (k := k) s (by omega) (by omega)
    rw [e, htext, hlz]
    exact ⟨fun h => absurd h (by omega), fun _ => ⟨rfl, rfl, houtLen, hlzCount, output_finish_ok text k s⟩⟩
  · refine ⟨fun h => absurd h (by omega), fun _ text k henc => ?_⟩
    have htext : (enc (alphabet s.cfg a) (s.input s.inLen.toNat)).1 = text := congrArg Prod.fst henc
    rw [htext] at hover
    rw [e]
    exact ⟨fun _ => ⟨rfl, rfl, finish_fail_registers ..⟩, fun h => absurd h (by omega)⟩

end Sys2Proof.Machine
end

section
/-! SUPPORT. The arithmetic of DECODE against the spec's own words (42_decode.md R112 to R118), its round trip with
ENCODE (R125), and the completion of DECODE (R119, R120). -/

namespace Sys2Proof.Machine

/-! ### Positional values without a leading zero (R113) -/

/-- A digit list that does not begin with 0 is the only one of its value. -/
theorem digits_ofDigits_reverse {b : Nat} {ds : List Nat} (hb : 1 < b) (hlt : ∀ d ∈ ds, d < b)
    (hhead : ds.head? ≠ some 0) : Nat.digits b (Nat.ofDigits b ds.reverse) = ds.reverse := by
  refine Nat.digits_ofDigits b hb _ (fun d hd => hlt d (List.mem_reverse.mp hd)) fun hne hlast => hhead ?_
  rw [← List.getLast?_reverse, List.getLast?_eq_getLast_of_ne_nil hne, hlast]

theorem digits58_val58 {ds : List Nat} (hlt : ∀ d ∈ ds, d < 58) (hhead : ds.head? ≠ some 0) :
    digits58 (val58 ds) = ds := by
  rw [val58_eq_ofDigits, digits58_eq, digits_ofDigits_reverse (by omega) hlt hhead, List.reverse_reverse]

/-- The value of a byte list is the library's, which lists the least significant digit first. -/
theorem val256_eq_ofDigits (p : List Byte) : val256 p = Nat.ofDigits 256 (p.map BitVec.toNat).reverse := by
  induction p with
  | nil => rfl
  | cons b p ih =>
    rw [val256_cons, ih, List.map_cons, List.reverse_cons, Nat.ofDigits_append, Nat.ofDigits_singleton,
      List.length_reverse, List.length_map]
    ring

theorem bytes256_toNat (x : Nat) : (bytes256 x).map BitVec.toNat = (Nat.digits 256 x).reverse := by
  rw [bytes256_eq, List.map_map]
  refine (List.map_congr_left fun d hd => ?_).trans (List.map_id _)
  exact Nat.mod_eq_of_lt (Nat.digits_lt_base (by omega) (List.mem_reverse.mp hd))

theorem val256_bytes256 (x : Nat) : val256 (bytes256 x) = x := by
  rw [val256_eq_ofDigits, bytes256_toNat, List.reverse_reverse, Nat.ofDigits_digits]

/-- Without a leading zero byte a payload is the bytes of its value. -/
theorem bytes256_val256 {p : List Byte} (hhead : p.head? ≠ some 0#8) : bytes256 (val256 p) = p := by
  have hdigit : (p.map BitVec.toNat).head? ≠ some 0 := by
    rw [List.head?_map, ne_eq, Option.map_eq_some_iff]
    rintro ⟨b, hb, hzero⟩
    exact hhead (hb.trans (congrArg some (BitVec.eq_of_toNat_eq hzero)))
  have hbyte : ∀ d ∈ p.map BitVec.toNat, d < 256 := List.forall_mem_map.mpr fun b _ => b.isLt
  rw [bytes256_eq, val256_eq_ofDigits, digits_ofDigits_reverse (by omega) hbyte hdigit, List.reverse_reverse,
    List.map_map]
  simp [Function.comp_def]

/-- A leading zero byte would leave a shorter list of the same value. -/
theorem bytes256_head?_ne_zero (x : Nat) : (bytes256 x).head? ≠ some 0#8 := by
  intro h
  obtain ⟨q, hq⟩ := List.head?_eq_some_iff.mp h
  have hval : val256 q = x := by
    rw [← val256_bytes256 x, hq]
    simp
  have hshort := (bytes256_length_le_iff x q.length).mpr (hval ▸ val256_lt q)
  rw [hq, List.length_cons] at hshort
  omega

/-- Settles O16: a list without a leading zero byte is determined by its value, and a value has at most m bytes exactly
when it is below 256^m. -/
theorem bytes256IsMinimalBigEndian : Obligations.Bytes256IsMinimalBigEndian :=
  ⟨bytes256_zero, fun x _ => ⟨bytes256_head?_ne_zero x, val256_bytes256 x,
    fun _ hhead hval => (hval ▸ bytes256_val256 hhead).symm, (bytes256_length_le_iff x _).mp le_rfl,
    fun l => (bytes256_length_le_iff x l).mpr⟩⟩

/-! ### Valid texts (R115, R118, R123) -/

theorem inv_charOf {table : List Byte} (htable : alphaOk table = true) {d : Nat} (hd : d < 58) :
    inv table (charOf table d) = some d := by
  obtain ⟨hlen, hnodup⟩ := of_decide_eq_true htable
  exact (inv_eq_some_iff hnodup _ d).mpr ⟨by omega, rfl⟩

theorem val58_lt {ds : List Nat} (hlt : ∀ d ∈ ds, d < 58) : val58 ds < 58 ^ ds.length := by
  rw [val58_eq_ofDigits, ← List.length_reverse (as := ds)]
  exact Nat.ofDigits_lt_base_pow_length (by omega) fun d hd => hlt d (List.mem_reverse.mp hd)

theorem val58_replicate_zero_append (k : Nat) (ds : List Nat) : val58 (List.replicate k 0 ++ ds) = val58 ds := by
  rw [val58_eq_ofDigits, val58_eq_ofDigits, List.reverse_append, List.reverse_replicate,
    Nat.ofDigits_append_replicate_zero]

/-- A text of valid characters decodes to its zero prefix and the bytes of its value. -/
theorem dec_of_valid {table t : List Byte} (h : ∀ c ∈ t, (inv table c).isSome = true) :
    dec table t =
      .ok (List.replicate (zlc table t) 0#8 ++ bytes256 (val58 (digitsOf table t))) (zlc table t) := by
  obtain ⟨v, hscan, hv⟩ := scan_valid_append table t.length t.reverse [] 0 0 (by simpa using h)
  have hval : v = val58 (digitsOf table t) := by
    rw [hv, val58_eq_ofDigits, digitsOf, digitsOf, List.filterMap_reverse, pow_zero, one_mul]
  rw [List.append_nil, scan, zero_add, hval] at hscan
  rw [dec, hscan]

theorem digitsOf_map_charOf {table : List Byte} (htable : alphaOk table = true) {ds : List Nat}
    (hlt : ∀ d ∈ ds, d < 58) : digitsOf table (ds.map (charOf table)) = ds := by
  rw [digitsOf, List.filterMap_map]
  exact (List.filterMap_congr fun d hd => inv_charOf htable (hlt d hd)).trans (List.filterMap_some)

/-- The text of a digit list decodes to its zero prefix and the bytes of the list's value (R112, R115). -/
theorem dec_map_charOf {table : List Byte} (htable : alphaOk table = true) {ds : List Nat}
    (hlt : ∀ d ∈ ds, d < 58) :
    dec table (ds.map (charOf table)) =
      .ok (List.replicate (zlc table (ds.map (charOf table))) 0#8 ++ bytes256 (val58 ds))
        (zlc table (ds.map (charOf table))) := by
  have hvalid : ∀ c ∈ ds.map (charOf table), (inv table c).isSome = true :=
    List.forall_mem_map.mpr fun d hd => by rw [inv_charOf htable (hlt d hd)]; rfl
  rw [dec_of_valid hvalid, digitsOf_map_charOf htable hlt]

/-- Settles O23: the result is no longer than the text because no payload is. -/
theorem validTextDecodesToItsValue : Obligations.ValidTextDecodesToItsValue := by
  intro table ds htable hlt
  have hdec := dec_map_charOf htable hlt
  obtain ⟨hlen, -⟩ := of_decide_eq_true htable
  exact ⟨_, rfl, hdec, val58_lt hlt, by simpa using dec_length_le hlen hdec⟩

theorem map_charOf_head?_ne_zeroChar {table : List Byte} (htable : alphaOk table = true) {ds : List Nat}
    (hlt : ∀ d ∈ ds, d < 58) (hhead : ds.head? ≠ some 0) :
    (ds.map (charOf table)).head? ≠ some (charOf table 0) := by
  obtain ⟨hlen, hnodup⟩ := of_decide_eq_true htable
  rw [List.head?_map, ne_eq, Option.map_eq_some_iff]
  rintro ⟨d, hd, hchar⟩
  have hd58 := hlt d (List.mem_of_head? hd)
  obtain rfl := (charOf_inj hnodup (by omega) (by omega)).mp hchar
  exact hhead hd

/-- Zero characters before digits that do not begin with 0 decode to as many zero bytes. -/
theorem dec_replicate_append {table : List Byte} (htable : alphaOk table = true) (k : Nat) {ds : List Nat}
    (hlt : ∀ d ∈ ds, d < 58) (hhead : ds.head? ≠ some 0) :
    dec table (List.replicate k (charOf table 0) ++ ds.map (charOf table)) =
      .ok (List.replicate k 0#8 ++ bytes256 (val58 ds)) k := by
  have hzlc : zlc table (List.replicate k (charOf table 0) ++ ds.map (charOf table)) = k :=
    leadingRun_replicate_append _ k _ (map_charOf_head?_ne_zeroChar htable hlt hhead)
  have hdec := dec_map_charOf htable (ds := List.replicate k 0 ++ ds)
    (List.forall_mem_append.mpr ⟨fun d hd => by rw [List.eq_of_mem_replicate hd]; omega, hlt⟩)
  rwa [List.map_append, List.map_replicate, hzlc, val58_replicate_zero_append] at hdec

/-- Settles O25: the zero prefix is the whole text, and no digits come after it. -/
theorem zeroTextDecodesToZeroBytes : Obligations.ZeroTextDecodesToZeroBytes := fun table n htable => by
  simpa [val58] using dec_replicate_append htable n (ds := []) (by simp) (by simp)

/-! ### The round trip (R125) -/

/-- Zero bytes before a payload that does not begin with one encode to as many zero characters, then its digits. -/
theorem enc_replicate_append_digits (table : List Byte) (k : Nat) {q : List Byte} (hhead : q.head? ≠ some 0#8) :
    enc table (List.replicate k 0#8 ++ q) =
      (List.replicate k (charOf table 0) ++ (digits58 (val256 q)).map (charOf table), k) := by
  rw [enc, lzc_replicate_append k hhead, val256_replicate_zero]

theorem exists_leading_zeros (p : List Byte) : ∃ k q, p = List.replicate k 0#8 ++ q ∧ q.head? ≠ some 0#8 :=
  ⟨_, _, leadingRun_split 0#8 p, leadingRun_stops 0#8 p⟩

/-- Decoding the text of a payload gives its zero prefix and the bytes of its value, which are the payload's own. -/
theorem dec_enc {table : List Byte} (htable : alphaOk table = true) (p : List Byte) :
    dec table (enc table p).1 = .ok p (lzc p) := by
  obtain ⟨k, q, rfl, hhead⟩ := exists_leading_zeros p
  rw [enc_replicate_append_digits table k hhead, lzc_replicate_append k hhead,
    dec_replicate_append htable k (digits58_lt _) (digits58_head?_ne_zero _), val58_digits58, bytes256_val256 hhead]

/-- A text that decodes has valid characters only. -/
theorem valid_of_dec_ok {table t out : List Byte} {k : Nat} (h : dec table t = .ok out k) :
    ∀ c ∈ t, (inv table c).isSome = true := by
  unfold dec at h
  split at h
  · cases h
  · rename_i hscan
    simpa using valid_of_scan_value hscan

theorem map_charOf_digitsOf {table : List Byte} (htable : alphaOk table = true) {t : List Byte}
    (h : ∀ c ∈ t, (inv table c).isSome = true) : (digitsOf table t).map (charOf table) = t := by
  obtain ⟨-, hnodup⟩ := of_decide_eq_true htable
  induction t with
  | nil => rfl
  | cons c t ih =>
    obtain ⟨hc, ht⟩ := List.forall_mem_cons.mp h
    obtain ⟨d, hd⟩ := Option.isSome_iff_exists.mp hc
    obtain ⟨-, hchar⟩ := (inv_eq_some_iff hnodup c d).mp hd
    rw [digitsOf, List.filterMap_cons_some hd, List.map_cons, hchar]
    exact congrArg (c :: ·) (ih ht)

/-- A valid text is a zero prefix and the characters of digits that do not begin with 0. -/
theorem exists_digits_of_valid {table t : List Byte} (htable : alphaOk table = true)
    (h : ∀ c ∈ t, (inv table c).isSome = true) :
    ∃ (k : Nat) (ds : List Nat), t = List.replicate k (charOf table 0) ++ ds.map (charOf table) ∧ (∀ d ∈ ds, d < 58) ∧
      ds.head? ≠ some 0 := by
  obtain ⟨hlen, -⟩ := of_decide_eq_true htable
  have hdigits := map_charOf_digitsOf htable (t := t.drop (zlc table t)) fun c hc => h c (List.mem_of_mem_drop hc)
  refine ⟨zlc table t, digitsOf table (t.drop (zlc table t)), ?_, hlen ▸ digitsOf_lt, fun hzero => ?_⟩
  · rw [hdigits]
    exact leadingRun_split _ t
  · refine leadingRun_stops (charOf table 0) t ?_
    change (t.drop (zlc table t)).head? = _
    rw [← hdigits, List.head?_map, hzero]
    rfl

/-- Settles O26: a payload and a valid text both are a zero prefix and a part that does not begin with a zero, and such
parts and their values determine each other on both sides. -/
theorem conversionRoundTrip : Obligations.ConversionRoundTrip := by
  refine fun table htable => ⟨dec_enc htable, fun t out k h => ?_⟩
  obtain ⟨j, ds, rfl, hlt, hhead⟩ := exists_digits_of_valid htable (valid_of_dec_ok h)
  rw [dec_replicate_append htable j hlt hhead] at h
  obtain ⟨rfl, rfl⟩ := Decoding.ok.inj h
  rw [enc_replicate_append_digits table _ (bytes256_head?_ne_zero _), val256_bytes256, digits58_val58 hlt hhead]

/-! ### The character reported (R114) -/

/-- A scan stops at the first invalid character it meets. -/
theorem scan_eq_invalid_iff (table : List Byte) (n : Nat) (cs : List Byte) (pos x : Nat) (c : Byte) (i : Nat) :
    scan table n cs pos x = .invalid c i ↔
      ∃ met rest, cs = met ++ c :: rest ∧ i = n - 1 - (pos + met.length) ∧ inv table c = none ∧
        ∀ d ∈ met, inv table d ≠ none := by
  induction cs generalizing pos x with
  | nil => simp [scan]
  | cons b cs ih =>
    cases hb : inv table b with
    | none =>
      rw [scan_cons_invalid _ _ _ _ _ _ hb, Scan.invalid.injEq]
      constructor
      · rintro ⟨rfl, rfl⟩
        exact ⟨[], cs, rfl, rfl, hb, by simp⟩
      · rintro ⟨_ | ⟨d, met⟩, rest, hcs, hi, -, hmet⟩
        · exact ⟨(List.cons.inj hcs).1, hi.symm⟩
        · obtain ⟨rfl, -⟩ := List.cons.inj hcs
          exact absurd hb (hmet b (by simp))
    | some d =>
      rw [scan_cons_valid _ _ _ _ _ _ d hb, ih]
      constructor
      · rintro ⟨met, rest, rfl, hi, hc, hmet⟩
        exact ⟨b :: met, rest, rfl, by rw [hi, List.length_cons]; omega, hc,
          List.forall_mem_cons.mpr ⟨by simp [hb], hmet⟩⟩
      · rintro ⟨_ | ⟨d, met⟩, rest, hcs, hi, hc, hmet⟩
        · obtain ⟨rfl, -⟩ := List.cons.inj hcs
          simp [hb] at hc
        · obtain ⟨rfl, rfl⟩ := List.cons.inj hcs
          exact ⟨met, rest, rfl, by rw [hi, List.length_cons]; omega, hc, (List.forall_mem_cons.mp hmet).2⟩

theorem dec_eq_invalidChar_iff_scan (table t : List Byte) (c : Byte) (i : Nat) :
    dec table t = .invalidChar c i ↔ scan table t.length t.reverse 0 0 = .invalid c i := by
  cases h : scan table t.length t.reverse 0 0 <;> simp [dec, h]

/-- The character reported is invalid, its index the number of characters before it, and all after it are valid. -/
theorem dec_eq_invalidChar_iff (table t : List Byte) (c : Byte) (i : Nat) :
    dec table t = .invalidChar c i ↔
      ∃ before after, t = before ++ c :: after ∧ i = before.length ∧ inv table c = none ∧
        ∀ d ∈ after, inv table d ≠ none := by
  rw [dec_eq_invalidChar_iff_scan, scan_eq_invalid_iff]
  constructor
  · rintro ⟨met, rest, ht, hi, hc, hmet⟩
    obtain rfl : t = rest.reverse ++ c :: met.reverse := by simpa using congrArg List.reverse ht
    exact ⟨_, _, rfl, by simpa using hi, hc, by simpa using hmet⟩
  · rintro ⟨before, after, rfl, rfl, hc, hafter⟩
    exact ⟨after.reverse, before.reverse, by simp, by simp, hc, by simpa using hafter⟩

/-- The split at the reported character, in terms of the text's indices. -/
theorem dec_eq_invalidChar_iff_getElem? (table t : List Byte) (c : Byte) (i : Nat) :
    dec table t = .invalidChar c i ↔
      t[i]? = some c ∧ inv table c = none ∧ ∀ j d, i < j → t[j]? = some d → inv table d ≠ none := by
  rw [dec_eq_invalidChar_iff]
  constructor
  · rintro ⟨before, after, rfl, rfl, hc, hafter⟩
    refine ⟨by simp, hc, fun j d hj hd => hafter d ?_⟩
    obtain ⟨m, rfl⟩ := Nat.exists_eq_add_of_lt hj
    rw [List.getElem?_append_right (by omega), show before.length + m + 1 - before.length = m + 1 by omega,
      List.getElem?_cons_succ] at hd
    exact List.mem_of_getElem? hd
  · rintro ⟨hi, hc, hlater⟩
    obtain ⟨hlt, rfl⟩ := List.getElem?_eq_some_iff.mp hi
    refine ⟨t.take i, t.drop (i + 1), by simp, (List.length_take_of_le hlt.le).symm, hc, fun d hd => ?_⟩
    obtain ⟨m, hm⟩ := List.mem_iff_getElem?.mp hd
    exact hlater (i + 1 + m) d (by omega) (by rwa [List.getElem?_drop] at hm)

/-- Settles O24: a text without an invalid character decodes, so one with such a character has it reported. -/
theorem rightmostInvalidCharacterReported : Obligations.RightmostInvalidCharacterReported := by
  refine ⟨(dec_eq_invalidChar_iff ..).mpr ⟨[0x30#8], [], rfl, rfl, by decide, by simp⟩,
    fun table t => ⟨dec_eq_invalidChar_iff_getElem? table t, ?_, ?_⟩⟩
  · rintro ⟨c, i, h⟩
    obtain ⟨before, after, rfl, -, hc, -⟩ := (dec_eq_invalidChar_iff ..).mp h
    exact ⟨c, by simp, hc⟩
  · rintro ⟨c, hc, hnone⟩
    cases h : dec table t with
    | invalidChar b i => exact ⟨b, i, rfl⟩
    | ok out k =>
      have hvalid := valid_of_dec_ok h c hc
      simp [hnone] at hvalid

/-! ### The completion of DECODE (R119, R120) -/

theorem dec_abc : dec alphaBitcoin [0x5A#8, 0x69#8, 0x43#8, 0x61#8] = .ok [0x61#8, 0x62#8, 0x63#8] 0 := by
  have h := dec_enc builtIn_alphaOk.1 [0x61#8, 0x62#8, 0x63#8]
  rwa [enc_abc] at h

/-- Settles O10: DECODE ends with `finish` of its outcome, which is one of four; each case of the statement meets its
own outcome and excludes the other three. -/
theorem decodeCommandOutcome : Obligations.DecodeCommandOutcome := by
  refine ⟨rfl, rfl, dec_abc, fun s a hcfg => ⟨finish (decodeResult a s) s, rfl, ?_⟩⟩
  obtain ⟨-, -, -, hstatus, -, -, hbuf, hbatch, hseq, -⟩ := finish_frame (decodeResult a s) s
  refine ⟨by simp [hstatus], by simp [hstatus], by simp [hstatus], hseq, inByte_congr hbuf hbatch, ?_⟩
  have hin := inCap_le hcfg
  have hout := outCap_le hcfg
  rcases decodeResult_cases a s with ⟨hlong, e⟩ | ⟨hlen, ⟨c, i, hdec, e⟩ | ⟨out, k, hdec, ⟨hfits, e⟩ | ⟨hover, e⟩⟩⟩
  · rw [e]
    exact ⟨fun _ => ⟨rfl, rfl, finish_fail_registers ..⟩, fun h => absurd h (by omega)⟩
  · rw [e, hdec]
    refine ⟨fun h => absurd h (by omega), fun _ => ⟨?_, by simp⟩⟩
    rintro _ _ ⟨⟩
    obtain ⟨hi, -⟩ := (dec_eq_invalidChar_iff_getElem? ..).mp hdec
    have hi := (List.getElem?_eq_some_iff.mp hi).1
    rw [input_length] at hi
    obtain ⟨houtLen, hlzCount, herrByte, herrIndex⟩ := finish_fail_registers .invalidChar true c i s
    exact ⟨rfl, rfl, houtLen, hlzCount, herrByte, herrIndex ▸ Nat.mod_eq_of_lt (by omega)⟩
  · rw [e, hdec]
    refine ⟨fun h => absurd h (by omega), fun _ => ⟨by simp, ?_⟩⟩
    rintro _ _ ⟨⟩
    have hk : k ≤ s.inLen.toNat := (dec_ok_eq hdec).1 ▸ (leadingRun_le _ _).trans_eq (input_length s _)
    obtain ⟨houtLen, hlzCount⟩ := finish_ok_registers (out := out) (k := k) s (by omega) (by omega)
    exact ⟨fun h => absurd h (by omega), fun _ => ⟨rfl, rfl, houtLen, hlzCount, output_finish_ok out k s⟩⟩
  · rw [e, hdec]
    refine ⟨fun h => absurd h (by omega), fun _ => ⟨by simp, ?_⟩⟩
    rintro _ _ ⟨⟩
    exact ⟨fun _ => ⟨rfl, rfl, finish_fail_registers ..⟩, fun h => absurd h (by omega)⟩

/-! ### ENCODE, then DECODE (R125) -/

theorem alphabet_ok {c : Config} (h : c.wf = true) (a : Asel) : alphaOk (alphabet c a) = true := by
  simp only [Config.wf, Bool.and_eq_true] at h
  obtain ⟨⟨-, h0⟩, h1⟩ := h
  cases a
  · exact h0
  · exact h1

/-- An ENCODE without an error has stored the whole text in OUT_BUF, and the number of leading zeros (R103). -/
theorem encode_ok_stores_text {s t : State} {a : Asel} (hcfg : s.cfg.wf = true) (h : exec (.encode a) s = .next t)
    (herr : t.status.err = false) :
    t.output t.outLen.toNat = (enc (alphabet s.cfg a) (s.input s.inLen.toNat)).1 ∧
      t.lzCount = BitVec.ofNat 32 (lzc (s.input s.inLen.toNat)) := by
  obtain rfl : finish (encodeResult a s) s = t := Host.Outcome.next.inj h
  rcases encodeResult_cases a s with ⟨-, e⟩ | ⟨-, ⟨hfits, e⟩ | ⟨-, e⟩⟩ <;> rw [e] at herr ⊢
  · cases herr
  · have hout := outCap_le hcfg
    refine ⟨?_, rfl⟩
    rw [finish_ok, State.complete_outLen, State.storeResult_outLen, BitVec.toNat_ofNat, Nat.mod_eq_of_lt (by omega)]
    exact output_finish_ok ..
  · cases herr

/-- A DECODE whose text decodes to bytes that fit ends with them (R119). -/
theorem exec_decode_of_dec_ok {s : State} {a : Asel} {out : List Byte} {k : Nat} (hlen : s.inLen.toNat ≤ s.cfg.inCap)
    (hdec : dec (alphabet s.cfg a) (s.input s.inLen.toNat) = .ok out k) (hfits : out.length ≤ s.cfg.outCap) :
    exec (.decode a) s = .next (finish (.ok out k) s) := by
  have hresult : decodeResult a s = .ok out k := by
    rw [decodeResult, if_neg (by omega), hdec]
    exact if_neg (by omega)
  rw [exec, execDecode, hresult]

/-- Settles O29: OUT_BUF holds the text of the input, DECODE reads that text from its IN_BUF, and decoding it gives the
input back. -/
theorem encodeThenDecodeRestoresTheInput : Obligations.EncodeThenDecodeRestoresTheInput := by
  intro s t u a hcfg hencode herr hucfg hulen htext hfits hinput
  obtain ⟨hstored, hlz⟩ := encode_ok_stores_text hcfg hencode herr
  have hdec : dec (alphabet u.cfg a) (u.input u.inLen.toNat) =
      .ok (s.input s.inLen.toNat) (lzc (s.input s.inLen.toNat)) := by
    rw [hinput, hstored, hucfg]
    exact dec_enc (alphabet_ok hcfg a) _
  have hdecode := exec_decode_of_dec_ok (by rwa [hulen, hucfg]) hdec (by rwa [input_length, hucfg])
  refine ⟨_, hdecode, rfl, by simp [finish_ok], hlz.symm, ?_⟩
  simpa using output_finish_ok (s.input s.inLen.toNat) (lzc (s.input s.inLen.toNat)) u

end Sys2Proof.Machine
end

section
/-! SUPPORT. NOP and the illegal words: the commands whose completion stores no result, from acceptance to completion
(43_nop_illegal.md R128 to R132). -/

namespace Sys2Proof.Machine

/-! ### The illegal words (R129 to R132) -/

/-- An encoding has RSVD 0 and either OP 0 with ASEL 0, or OP 1 or 2 with ASEL 0 or 1 (30_encoding.md R74, R75). -/
theorem encode_fields_cases (i : Instr) :
    rsvdField (encode i) = 0 ∧
    ((opField (encode i) = 0 ∧ aselField (encode i) = 0) ∨
      ((opField (encode i) = 1 ∨ opField (encode i) = 2) ∧ (aselField (encode i)).toNat < 2)) := by
  have haselBits : ∀ a : Asel, (aselBits a).toNat < 2 := fun a => by cases a <;> decide
  obtain ⟨hrsvd, hop, hasel⟩ := encode_fields i
  rw [hop, hasel]
  cases i with
  | nop => exact ⟨hrsvd, .inl ⟨rfl, rfl⟩⟩
  | encode a => exact ⟨hrsvd, .inr ⟨.inl rfl, haselBits a⟩⟩
  | decode a => exact ⟨hrsvd, .inr ⟨.inr rfl, haselBits a⟩⟩

/-- A word with a reserved OP, an ASEL reserved for its OP, or a non-zero RSVD is no encoding, and so illegal. -/
theorem decodeWord_illegal_of_reserved_field {w : Word}
    (h : 3 ≤ (opField w).toNat ∨ ((opField w = 1#4 ∨ opField w = 2#4) ∧ 2 ≤ (aselField w).toNat) ∨
      (opField w = 0#4 ∧ aselField w ≠ 0#4) ∨ rsvdField w ≠ 0#24) :
    ∃ r, decodeWord w = .illegal r := by
  refine (decodeWord_illegal_iff w).mpr fun i hi => absurd h ?_
  rw [hi]
  obtain ⟨hrsvd, ⟨hop, hasel⟩ | ⟨hop | hop, hasel⟩⟩ := encode_fields_cases i
  · simp [hop, hasel, hrsvd]
  · simpa [hop, hrsvd] using hasel
  · simpa [hop, hrsvd] using hasel

/-- Settles O8: PEND is an illegal word, and its completion is the illegal command's. -/
theorem reservedFieldsAreIllegalCommands : Obligations.ReservedFieldsAreIllegalCommands := by
  intro s hreserved
  obtain ⟨r, hillegal⟩ := decodeWord_illegal_of_reserved_field (w := s.pend) hreserved
  exact completion_of_illegal hillegal

/-- Settles O7: the accepted word is in PEND, and a failure that has not touched OUT_BUF ends its command. -/
theorem illegalCommandCompletesWithItsCode : Obligations.IllegalCommandCompletesWithItsCode := by
  intro s w r hillegal hidle hrst
  obtain ⟨-, -, hctrl, hstatus, hcmd, hlen, hbuf, hbatch, hseq, -⟩ :=
    finish_frame (.fail .illegalCmd false 0 0) (s.accept w)
  obtain ⟨houtLen, hlzCount, herrByte, herrIndex⟩ := finish_fail_registers .illegalCmd false 0 0 (s.accept w)
  refine ⟨busError_word_aligned hrst rfl, writeCmd_idle w s hidle, _,
    completion_of_illegal (s := s.accept w) hillegal, hstatus, houtLen, hlzCount, herrByte, herrIndex, hcmd, hseq,
    outByte_congr rfl rfl, inByte_congr hbuf hbatch, hlen, hctrl, fun _ hovr => ?_⟩
  rw [hstatus, status_toWord_eq]
  simp [hovr, Result.errCode, ErrCode.code]

/-! ### NOP (R128) -/

/-- A NOP written while IDLE completes with OkNoOutput. -/
theorem completion_accept_nop (s : State) :
    completion (s.accept 0x00000000#32) = .next (finish .okNoOutput (s.accept 0x00000000#32)) :=
  completion_of_instr (s := s.accept 0x00000000#32) (decodeWord_encode .nop)

/-- Bit 3 of STATUS is OVR (10_state.md R22). -/
theorem status_toWord_getLsbD_three (st : Status) : st.toWord.getLsbD 3 = st.ovr := by
  obtain ⟨busy, done, err, ovr, errcode⟩ := st
  revert busy done err ovr errcode
  decide

/-- Settles O6: acceptance clears the error and the results, and OkNoOutput changes neither buffer. -/
theorem nopCommandClearsTheErrorState : Obligations.NopCommandClearsTheErrorState := by
  refine ⟨fun s hidle => ?_, fun s hbusy => writeCmd_busy _ s hbusy⟩
  obtain ⟨-, -, -, hstatus, -, -, hbuf, hbatch, hseq, -⟩ := finish_frame .okNoOutput (s.accept 0x00000000#32)
  have houtByte : ∀ i, (finish .okNoOutput (s.accept 0x00000000#32)).outByte i = s.outByte i :=
    outByte_congr rfl rfl
  refine ⟨writeCmd_idle _ s hidle, _, completion_accept_nop s, hstatus, rfl, rfl, rfl, rfl, hseq, houtByte,
    inByte_congr hbuf hbatch, fun hwf i hi => ⟨?_, ?_⟩, fun hword => ?_⟩
  · have hout : outWindow s.cfg (0x20000 + i) = true := decide_eq_true (by omega)
    rw [byteAt_outBuf_busy (s := s.accept 0x00000000#32) hwf rfl hout, Nat.add_sub_cancel_left, State.accept_draws]
  · exact (byteAt_outBuf_idle (s := finish .okNoOutput (s.accept 0x00000000#32)) hwf rfl hi).trans (houtByte i)
  · have hovr : s.status.ovr = false := by rw [← status_toWord_getLsbD_three, hword]; rfl
    rw [hstatus, status_toWord_eq]
    simp [hovr, Result.errCode, ErrCode.code]

end Sys2Proof.Machine
end

section
/-! SUPPORT. The error a completion reports (60_exceptions.md R140), and the completion of every command (R142). -/

namespace Sys2Proof.Machine

/-! ### Every command completes (R142) -/

/-- Settles O14: a command ends with `finish` of its outcome, which sets DONE and returns SEQ to IDLE. -/
theorem commandsAlwaysComplete : Obligations.CommandsAlwaysComplete := by
  intro i s
  obtain ⟨r, hexec, -⟩ := exec_cases i s
  obtain ⟨-, -, -, hstatus, -, -, -, -, hseq, -⟩ := finish_frame r s
  exact ⟨finish r s, hexec, by rw [hstatus]; rfl, hseq⟩

/-! ### The error code of each outcome (R140) -/

/-- A conversion that has a result can only fail for its length. -/
theorem fitted_code (cap : Nat) (out : List Byte) (k : Nat) :
    (fitted cap out k).errCode.code = if cap < out.length then 3 else 0 := by
  rcases fitted_cases cap out k with ⟨hfits, e⟩ | ⟨hover, e⟩
  · rw [e, if_neg (by omega)]; rfl
  · rw [e, if_pos hover]; rfl

/-- ENCODE reports LEN_RANGE before OUT_OVERFLOW. -/
theorem encodeResult_code (a : Asel) (s : State) :
    (encodeResult a s).errCode.code =
      if s.cfg.inCap < s.inLen.toNat then 2
      else if s.cfg.outCap < (enc (alphabet s.cfg a) (s.input s.inLen.toNat)).1.length then 3 else 0 := by
  rcases encodeResult_cases a s with ⟨hlong, e⟩ | ⟨hlen, ⟨hfits, e⟩ | ⟨hover, e⟩⟩
  · rw [e, if_pos hlong]; rfl
  · rw [e, if_neg (by omega), if_neg (by omega)]; rfl
  · rw [e, if_neg (by omega), if_pos hover]; rfl

theorem decodeResult_of_long {s : State} (a : Asel) (hlong : s.cfg.inCap < s.inLen.toNat) :
    decodeResult a s = .fail .lenRange true 0 0 :=
  if_pos hlong

theorem decodeResult_of_dec_invalidChar {s : State} {a : Asel} {c : Byte} {i : Nat}
    (hlen : s.inLen.toNat ≤ s.cfg.inCap)
    (hdec : dec (alphabet s.cfg a) (s.input s.inLen.toNat) = .invalidChar c i) :
    decodeResult a s = .fail .invalidChar true c i := by
  rw [decodeResult, if_neg (by omega), hdec]

theorem decodeResult_of_dec_ok {s : State} {a : Asel} {out : List Byte} {k : Nat}
    (hlen : s.inLen.toNat ≤ s.cfg.inCap) (hdec : dec (alphabet s.cfg a) (s.input s.inLen.toNat) = .ok out k) :
    decodeResult a s = fitted s.cfg.outCap out k := by
  rw [decodeResult, if_neg (by omega), hdec]

/-- DECODE of a text with an invalid character reports INVALID_CHAR whatever OUT_CAP is, and records the rightmost such
character and its index (42_decode.md R114). -/
theorem finish_decodeResult_of_invalid {s : State} {a : Asel} (hlen : s.inLen.toNat ≤ s.cfg.inCap)
    (hinvalid : ∃ c ∈ s.input s.inLen.toNat, inv (alphabet s.cfg a) c = none) :
    (finish (decodeResult a s) s).status.errcode = 1 ∧
      ∃ c, (s.input s.inLen.toNat)[(finish (decodeResult a s) s).errIndex.toNat]? = some c ∧
        inv (alphabet s.cfg a) c = none ∧ (finish (decodeResult a s) s).errByte = c.zeroExtend 32 ∧
        ∀ j d, (finish (decodeResult a s) s).errIndex.toNat < j → (s.input s.inLen.toNat)[j]? = some d →
          inv (alphabet s.cfg a) d ≠ none := by
  obtain ⟨-, hreported⟩ := rightmostInvalidCharacterReported
  obtain ⟨hsplit, hexists⟩ := hreported (alphabet s.cfg a) (s.input s.inLen.toNat)
  obtain ⟨c, i, hdec⟩ := hexists.mpr hinvalid
  obtain ⟨hi, hc, hlater⟩ := (hsplit c i).mp hdec
  have hlt : i < s.inLen.toNat := by simpa using (List.getElem?_eq_some_iff.mp hi).1
  obtain ⟨-, -, herrByte, herrIndex⟩ := finish_fail_registers .invalidChar true c i s
  rw [decodeResult_of_dec_invalidChar hlen hdec, herrIndex, BitVec.toNat_ofNat, Nat.mod_eq_of_lt (by omega)]
  exact ⟨rfl, c, hi, hc, herrByte, hlater⟩

/-- DECODE of a text without an invalid character can only report OUT_OVERFLOW. -/
theorem decodeResult_code_of_valid {s : State} {a : Asel} (hlen : s.inLen.toNat ≤ s.cfg.inCap)
    (hvalid : ∀ c ∈ s.input s.inLen.toNat, inv (alphabet s.cfg a) c ≠ none) :
    (decodeResult a s).errCode.code =
      if s.cfg.outCap <
          zlc (alphabet s.cfg a) (s.input s.inLen.toNat) +
            (bytes256 (val58 ((s.input s.inLen.toNat).filterMap (inv (alphabet s.cfg a))))).length
      then 3 else 0 := by
  rw [decodeResult_of_dec_ok hlen (dec_of_valid fun c hc => Option.isSome_iff_ne_none.mpr (hvalid c hc)), fitted_code,
    List.length_append, List.length_replicate, digitsOf]

/-! ### The one error a completion reports (R140) -/

/-- Settles O12: the word in PEND gives the command and so its outcome, whose code `finish` stores. -/
theorem errorPriority : Obligations.ErrorPriority := by
  intro s t ht
  have hfinish : ∀ r, completion s = .next (finish r s) → finish r s = t :=
    fun r hr => Host.Outcome.next.inj (hr.symm.trans ht)
  refine ⟨fun r hillegal => ?_, fun hnop => ?_, fun a hencode => ?_, fun a hdecode => ?_⟩
  · obtain rfl := hfinish _ (completion_of_illegal hillegal)
    exact errcode_finish ..
  · obtain rfl := hfinish .okNoOutput (completion_of_instr hnop)
    exact errcode_finish ..
  · obtain rfl := hfinish (encodeResult a s) (completion_of_instr hencode)
    rw [errcode_finish, encodeResult_code]
  · obtain rfl := hfinish (decodeResult a s) (completion_of_instr hdecode)
    refine ⟨fun hlong => ?_, finish_decodeResult_of_invalid, fun hlen hvalid => ?_⟩
    · rw [errcode_finish, decodeResult_of_long a hlong]; rfl
    · rw [errcode_finish, decodeResult_code_of_valid hlen hvalid]

end Sys2Proof.Machine
end

section
/-! SUPPORT. The RST input (70_reset_and_hazards.md R153 to R155): the reset step and the block held at reset; and the
end of a run (R170). -/

namespace Sys2Proof.Machine

/-! ### The reset step (R154) -/

/-- A listed turn that asserts RST is the step. -/
theorem step_rstAssert {s : State} (hsched : s.sched.head? = some .rstAssert) :
    step s = .next s.popTurn.assertReset := by
  obtain ⟨ts, hts⟩ := List.head?_eq_some_iff.mp hsched
  simp [step, turnStep, State.popTurn, hts]

/-- The step in which RST rises resets the block and raises the level. -/
theorem step_rstAssert_low {s : State} (hrst : s.rst = false) (hsched : s.sched.head? = some .rstAssert) :
    step s = .next { s.popTurn.resetBlock with rst := true } := by
  rw [step_rstAssert hsched, assertReset_low s.popTurn hrst]

/-- Settles O50: the two buffers take the batches `draws` and `draws + 1`, and `BufInv` says that the batches they had
are below `draws`. -/
theorem resetStep : Obligations.ResetStep := by
  intro s t hrst hsched hstep
  rw [step_rstAssert_low hrst hsched] at hstep
  cases hstep
  refine ⟨by constructor <;> rfl, rfl, rfl, rfl, rfl, rfl, rfl, rfl, rfl, by simp, by simp, by simp, by simp, by simp,
    fun hbuf => ?_⟩
  have hin := hbuf.in_drawn
  have hout := hbuf.out_drawn
  simp only [List.forall_mem_cons, State.resetBlock_inBatch, State.resetBlock_outBatch, State.popTurn_draws]
  exact ⟨by omega, by omega, by simp⟩

/-! ### The block held at reset (R153) -/

theorem State.AtReset.irq {s : State} (h : s.AtReset) : s.irq = false :=
  irq_of_not_enabled (by rw [h.ctrl])

theorem State.AtReset.releaseReset {s : State} (h : s.AtReset) : s.releaseReset.AtReset :=
  ⟨h.ctrl, h.status, h.cmdLast, h.inLen, h.outLen, h.lzCount, h.errByte, h.errIndex, h.seq, h.pend⟩

theorem State.AtReset.popTurn {s : State} (h : s.AtReset) : s.popTurn.AtReset :=
  h.of_sameBlock (by constructor <;> rfl)

/-- While RST is asserted the engine, a write and a second assertion can do nothing to the block: a step that goes on
leaves it as it is, or releases RST. -/
theorem step_of_rst {s t : State} (hrst : s.rst = true) (hstep : step s = .next t) :
    s.SameBlock t ∨ t = s.popTurn.releaseReset := by
  have hnotLow : s.rst ≠ false := by simp [hrst]
  rcases step_block_cases s t hstep with ⟨-, hlow, -⟩ | ⟨off, n, w, rest, -, hok, -⟩ | hsame | ⟨-, -, hlow⟩ | hrelease
  · exact absurd hlow hnotLow
  · exact absurd (rst_of_access hok) hnotLow
  · exact .inl hsame
  · exact absurd hlow hnotLow
  · exact .inr hrelease

/-- Settles O51: a step either keeps the whole block or changes nothing but the level of RST. -/
theorem heldWhileResetAsserted : Obligations.HeldWhileResetAsserted := by
  intro s hrst hreset
  refine ⟨hreset.irq, by simp [engineEnabled, hrst], fun off n => (busError_iff s off n).mpr (.inr (.inr hrst)),
    fun t hstep => ?_⟩
  rcases step_of_rst hrst hstep with hsame | rfl
  · have hreset' := hreset.of_sameBlock hsame
    exact ⟨hreset', hreset'.irq,
      fun i => ⟨inByte_congr hsame.inBuf hsame.inBatch i, outByte_congr hsame.outBuf hsame.outBatch i⟩⟩
  · have hreset' := hreset.popTurn.releaseReset
    exact ⟨hreset', hreset'.irq, fun _ => ⟨rfl, rfl⟩⟩

/-! ### The end of a run (R170) -/

theorem runEnded_iff (s : State) : runEnded s = true ↔ s.script = [] ∧ s.seq = .idle := by
  simp [runEnded]

/-- Where an ERROR faults the HOST's transaction, it completes no operation (60_exceptions.md R138). -/
theorem not_completesWith_error {op : HostOp} {c : Config} (hfault : c.busErrorAction = .fault) :
    ¬ completesWith op c (some .error) := by
  simp [completesWith, hfault]

/-- A step that does not leave the script alone completes its first operation. -/
theorem step_completes_operation {s t : State} (hstep : step s = .next t) :
    t.script = s.script ∨
    ∃ op rest, s.script = op :: rest ∧ t.script = rest ∧ s.hostHalted = false ∧ completesWith op s.cfg t.resp := by
  rcases step_script_cases s t hstep with
    ⟨hkept, -, -⟩ | ⟨hrunning, -, op, rest, hscript, ⟨hleft, hdone⟩ | ⟨hkept, -⟩⟩
  · exact .inl hkept
  · exact .inr ⟨op, rest, hscript, hleft, hrunning, hdone⟩
  · exact .inl hkept

/-- The step that ends a running HOST's transaction with an ERROR that faults it halts the HOST and keeps the
operation. -/
theorem step_faults_host {s t : State} (hrunning : s.hostHalted = false) (hstep : step s = .next t)
    (herror : t.resp = some .error) (hfault : s.cfg.busErrorAction = .fault) :
    t.hostHalted = true ∧ t.script = s.script ∧ s.script ≠ [] := by
  rcases step_script_cases s t hstep with
    ⟨-, hresp, -⟩ | ⟨-, hcfg, op, rest, hscript, ⟨-, hdone⟩ | ⟨hkept, -⟩⟩
  · have hhalted := (hostHalted_iff s).mpr ⟨hresp.symm.trans herror, hfault⟩
    simp [hrunning] at hhalted
  · rw [herror] at hdone
    exact absurd hdone (not_completesWith_error hfault)
  · exact ⟨(hostHalted_iff t).mpr ⟨herror, by rw [hcfg, hfault]⟩, hkept, by simp [hscript]⟩

/-- A HOST whose transaction has faulted issues nothing, whatever the other agents do. -/
theorem step_of_halted {s t : State} (hhalted : s.hostHalted = true) (hstep : step s = .next t) :
    t.hostHalted = true ∧ t.script = s.script := by
  rcases step_script_cases s t hstep with ⟨hkept, hresp, hcfg⟩ | ⟨hrunning, -⟩
  · exact ⟨by rwa [State.hostHalted, hresp, hcfg], hkept⟩
  · simp [hhalted] at hrunning

theorem run_of_halted {s t : State} {k : Nat} (hhalted : s.hostHalted = true)
    (hrun : Sys2Proof.core.run k s = .next t) : t.hostHalted = true ∧ t.script = s.script := by
  refine run_keeps (M := Sys2Proof.core) (P := fun u : State => u.hostHalted = true ∧ u.script = s.script)
    ?_ ⟨hhalted, rfl⟩ hrun
  rintro u v ⟨hu, hscript⟩ hstep
  obtain ⟨hv, hkept⟩ := step_of_halted hu hstep
  exact ⟨hv, hkept.trans hscript⟩

/-- Settles O59: an operation leaves the script by completing only, and a faulted HOST keeps it for ever. -/
theorem runEndsOnlyWhenEveryOperationCompleted : Obligations.RunEndsOnlyWhenEveryOperationCompleted := by
  refine ⟨runEnded_iff, fun _ _ => step_completes_operation, fun _ _ => step_faults_host,
    fun s t k hhalted hpending hrun => ?_⟩
  obtain ⟨hhalted', hkept⟩ := run_of_halted hhalted hrun
  exact ⟨hhalted', hkept, eq_false_of_ne_true (by simp [runEnded_iff, hkept, hpending])⟩

end Sys2Proof.Machine
end
